-- ==== Sys2Proof/Word.lean ====
section
/-! DEFINITION. The word types of the engine (00_scope R9, R10; 10_state R26, R28; 20_memory R50). -/

namespace Sys2Proof

/-- A 64-bit data word, unsigned (R10, R110). Addition, subtraction and complement of `BitVec 64`
are modulo 2^64 (R111, R112, R114), `>>>` is the logical right shift (R116). -/
abbrev W64 := BitVec 64

/-- A byte of the seed buffer (R10). -/
abbrev Byte := BitVec 8

/-- A command word (R80, `CMD_W` of R9). -/
abbrev CmdWord := BitVec 32

/-- The length operand of INIT and RESEED, `cmd[31:4]` (R81, R82, `LEN_W` of R9). -/
abbrev SeedLen := BitVec 28

/-- A byte address of the seed buffer, `cmd[13:4]` (R81, R83, `SADDR_W` of R9). -/
abbrev SeedAddr := BitVec 10

/-- An index into the pool or the result buffer: exactly 256 values, so it is in range by its type
(R30, R50, R52; `SZ_LOG` of R9). -/
abbrev PoolIndex := BitVec 8

/-- The count of undrawn words: 9 bits, because 256 is a legal value (R24, D24; `NW` of R9). -/
abbrev Count := BitVec 9

/-- A pool-sized memory: exactly 256 words of 64 bits, word-indexed (R28, R50, R51; `SZ` of R9). -/
abbrev Bank := Vector W64 256

/-- The scratch buffer: eight 64-bit words (R26; `XW` of R9). -/
abbrev Scratch := Vector W64 8

end Sys2Proof
end

