-- ==== Sys2Proof/Syntax.lean ====
section
/-! DEFINITION. The ten rows of the opcode table: the four host commands (30_encoding R85) and the six
internal operations, which have no encoding (30_encoding R89). -/

namespace Sys2Proof

/-- One constructor per row of spec/opcode_table.json, the internal operations among them (DEDUCED, log
entry 7). -/
inductive Instr where
  /-- NEXT, format N: draw one word (44_draw R190). -/
  | next
  /-- INIT `len`, format L: start the stream of the effective seed (42_init_reseed R160). -/
  | init (len : SeedLen)
  /-- RESEED `len`, format L: fold the effective seed into the state (42_init_reseed R149). -/
  | reseed (len : SeedLen)
  /-- SEEDW `addr, byte`, format W: write one seed byte (42_init_reseed R140). -/
  | seedw (addr : SeedAddr) (byte : Byte)
  /-- MIX, internal: the Seed Scrambler (41_seed_scrambler R132). -/
  | mix
  /-- FOLD, internal: exclusive-or the effective seed of length operand `len` (R141) into `R`
  (42_init_reseed R142, R143). -/
  | fold (len : SeedLen)
  /-- PREMIX, internal: prepare the scratch buffer (42_init_reseed R144). -/
  | premix
  /-- DERIVE1, internal: first derivation pass, source `R` (42_init_reseed R145). -/
  | derive1
  /-- DERIVE2, internal: second derivation pass, source `M` (42_init_reseed R146). -/
  | derive2
  /-- UPDATE, internal: the State Updater (43_state_updater R178). -/
  | update
  deriving DecidableEq, Repr

end Sys2Proof
end

