-- ==== Sys2Proof/WellFormed.lean ====
section
/-! DEFINITION. Which instructions can stand in a command word (30_encoding R85, R89). The ranges of
the operands (`len` 28 bits, `addr` 10 bits, `byte` 8 bits: R81 to R83) are their types, and every
value of each is legal (R82, R83), so the one check is that the instruction has an encoding. -/

namespace Sys2Proof

/-- The instruction is a host command: it has a row with a match and a mask in R85. The six internal
operations have none (R89). -/
def Instr.wellFormed : Instr → Bool
  | .next => true
  | .init _ => true
  | .reseed _ => true
  | .seedw _ _ => true
  | .mix => false
  | .fold _ => false
  | .premix => false
  | .derive1 => false
  | .derive2 => false
  | .update => false

end Sys2Proof
end

