-- ==== Sys2Proof/Decode.lean ====
section
/-! DEFINITION. Decoding of a command word, total on all 2^32 words and rejecting by name
(30_encoding R80 to R86), and the encoder (R91). -/

namespace Sys2Proof

/-- Why a command word is illegal (30_encoding R84): the three groups of that rule. -/
inductive Illegal where
  /-- `op` is 0 or 5 to 15. -/
  | unassignedOpcode (op : BitVec 4)
  /-- `op` is 1 (NEXT) and some bit of 31:4 is set. -/
  | nextZeroField
  /-- `op` is 4 (SEEDW) and some bit of 31:24 or 15:14 is set. -/
  | seedwZeroField
  deriving DecidableEq, Repr

/-- `op = cmd[3:0]` (R80). -/
def opField (w : CmdWord) : BitVec 4 := w.extractLsb' 0 4

/-- `cmd[31:4]`: `len` of format L (R81, R82) and `zero` of format N (R81). -/
def lenField (w : CmdWord) : SeedLen := w.extractLsb' 4 28

/-- `addr = cmd[13:4]` of format W (R81, R83). -/
def addrField (w : CmdWord) : SeedAddr := w.extractLsb' 4 10

/-- `zero_lo = cmd[15:14]` of format W (R81). -/
def zeroLoField (w : CmdWord) : BitVec 2 := w.extractLsb' 14 2

/-- `byte = cmd[23:16]` of format W (R81, R83). -/
def byteField (w : CmdWord) : Byte := w.extractLsb' 16 8

/-- `zero_hi = cmd[31:24]` of format W (R81). -/
def zeroHiField (w : CmdWord) : BitVec 8 := w.extractLsb' 24 8

/-- The decoding procedure of R86. -/
def decode (w : CmdWord) : Except Illegal Instr :=
  if opField w = 1#4 then
    if lenField w = 0#28 then .ok .next else .error .nextZeroField
  else if opField w = 2#4 then .ok (.init (lenField w))
  else if opField w = 3#4 then .ok (.reseed (lenField w))
  else if opField w = 4#4 then
    if zeroHiField w = 0#8 ∧ zeroLoField w = 0#2 then .ok (.seedw (addrField w) (byteField w))
    else .error .seedwZeroField
  else .error (.unassignedOpcode (opField w))

/-- The command word of an instruction, by the encoding formulas of R91; an internal operation has
none (R89). -/
def encode : Instr → Option CmdWord
  | .next => some 0x00000001#32
  | .init len => some ((len.setWidth 32 <<< 4) ||| 2#32)
  | .reseed len => some ((len.setWidth 32 <<< 4) ||| 3#32)
  | .seedw addr byte => some ((byte.setWidth 32 <<< 16) ||| (addr.setWidth 32 <<< 4) ||| 4#32)
  | .mix => none
  | .fold _ => none
  | .premix => none
  | .derive1 => none
  | .derive2 => none
  | .update => none

/-- The command word whose bits are the low `nbits` bits of `w`, numbered as the opcode table numbers
them (bit 0 least significant, R10), the bits above zero. A command is one 32-bit word (R80, R90; DEDUCED, log entry
16). -/
def tableWord (nbits w : Nat) : CmdWord := BitVec.ofNat 32 (w % 2 ^ nbits)

/-- What the decoder reads from the word of an opcode-table row. -/
def decodeTableWord (nbits w : Nat) : Option Instr :=
  match decode (tableWord nbits w) with
  | .ok i => some i
  | .error _ => none

end Sys2Proof
end

