-- ==== Sys2Proof/Config.lean ====
section
/-! DEFINITION. The one thing the spec leaves free: what the registers and memories hold after a reset
(10_state R36, 93_implementation_defined U1). Every other parameter is a fixed constant (00_scope R9)
and stands beside the operation that uses it, in Machine/Operands.lean. -/

namespace Sys2Proof

/-- The state that a reset leaves unspecified (10_state R36): `a`, `b`, `c`, `n`, `M`, `R`, `X`. -/
structure ResetContents where
  a : W64
  b : W64
  c : W64
  n : Count
  M : Bank
  R : Bank
  X : Scratch
  deriving DecidableEq, Repr, Inhabited

/-- FREE VALUE (DESIGN CHOICE, log entry 2): what the unspecified state holds after the `k`-th reset
event of a run.
It has no body that a proof could use: a statement about it holds for every value (U1: any value,
"never read them as zero"). -/
opaque Config.resetContents : Nat → ResetContents

end Sys2Proof
end

