-- ==== Sys2Proof/Machine/State.lean ====
section
/-! DEFINITION. Everything the spec gives the machine, as plain data: the record of 10_state R20, and
the command and response channels (00_scope R7, 30_encoding R80, R87). -/

namespace Sys2Proof.Machine

/-- The seed buffer `S` as cells (address, byte) in one canonical form (`Memory.wf`, Machine/Ops.lean):
addresses strictly rising and below 1024, no cell holding 0, which is what an unlisted address reads
as (10_state R29, R36: every byte of `S` is 0 at reset). -/
abbrev Memory := List Host.Cell

/-- The complete state of one engine: the nine rows of 10_state R20, under the manual's names. -/
structure Engine where
  /-- Accumulator (R21). -/
  a : W64
  /-- Accumulator; the last result word produced (R22). -/
  b : W64
  /-- Count of updates since the last INIT, modulo 2^64 (R23). -/
  c : W64
  /-- Words of `R` not yet consumed (R24). -/
  n : Count
  /-- The pool (R28). -/
  M : Bank
  /-- The result buffer (R28). -/
  R : Bank
  /-- The scratch buffer (R26), kept between commands as R27 says (DEDUCED, log entry 8). -/
  X : Scratch
  /-- The seed buffer (R29). -/
  S : Memory
  /-- An INIT has completed since reset (R33). -/
  seeded : Bool
  deriving DecidableEq, Repr

/-- The status of a response (30_encoding R88). The codes 0x3 to 0xF are never produced, so they have
no constructor. -/
inductive Status where
  | ok
  | errIllegal
  | errNotSeeded
  deriving DecidableEq, Repr

/-- One response: a status and a data word (30_encoding R87). -/
structure Response where
  status : Status
  data : W64
  deriving DecidableEq, Repr

/-- What the host can do to the engine (00_scope R7): present a command word, any 32-bit value (R80),
or assert reset, either between commands or while the command word named is in progress, which is
then abandoned (70_reset_and_hazards R230; DEDUCED, log entry 4). -/
inductive Input where
  | command (w : CmdWord)
  | reset (inProgress : Option CmdWord)
  deriving DecidableEq, Repr

/-- The machine: the engine, its two channels (held as lists: DESIGN CHOICE, log entry 3), and the
model's own count of reset events. -/
structure State where
  engine : Engine
  /-- What the host has issued and the engine has not taken yet, oldest first (20_memory R59). -/
  inputs : List Input
  /-- The responses produced so far, oldest first (30_encoding R80). -/
  responses : List Response
  /-- THE MODEL'S OWN: reset events taken so far, the argument of the free value
  `Config.resetContents` (log entry 2). -/
  resets : Nat
  deriving DecidableEq, Repr

/-- No fault exists: the engine has no trap and never halts (60_exceptions R200, R201;
70_reset_and_hazards R243), so this type has no constructor (log entry 15). -/
inductive Fault
  deriving DecidableEq, Repr

/-- Why a step could be without a meaning. -/
inductive Refusal where
  /-- Raised by no arm of `exec`: every instruction of the table has its meaning. It stands for an
  instruction not modelled yet, and would be safe. -/
  | notModelled (mnemonic : String)
  deriving DecidableEq, Repr

/-- The engine after a reset that left `u` in the unspecified state: `seeded` is 0 and every byte of
`S` is 0 (10_state R36, 70_reset_and_hazards R230). -/
def Engine.reset (u : ResetContents) : Engine :=
  { a := u.a, b := u.b, c := u.c, n := u.n, M := u.M, R := u.R, X := u.X, S := [], seeded := false }

/-- DESIGN CHOICE (log entry 1): the values `State.reset` names for the state that R36 leaves
unspecified. No response depends on them (R203, R38). -/
def namedResetContents : ResetContents :=
  { a := 0, b := 0, c := 0, n := 0, M := Vector.replicate 256 0, R := Vector.replicate 256 0,
    X := Vector.replicate 8 0 }

/-- The machine after a reset that left `u` in the unspecified state, with nothing issued yet. -/
def State.resetWith (u : ResetContents) : State :=
  { engine := Engine.reset u, inputs := [], responses := [], resets := 0 }

/-- The machine right after reset (10_state R36). -/
def State.reset : State := State.resetWith namedResetContents

end Sys2Proof.Machine
end

