-- ==== Sys2Proof/Machine/Ops.lean ====
section
/-! DEFINITION. The named operations over memories and registers (00_scope R12), the loop of the
pseudocode, and the end of a command: a response, or a refusal that changes nothing
(60_exceptions R201, R206), which is all the engine has in place of an exception. -/

namespace Sys2Proof

/-- `for i in 0..k-1`, ascending (00_scope R12): `step i` for each `i` in order, each on what the one
before it left. It is irreducible so that no proof runs a loop of 256 steps by accident: a proof uses
`forUpTo_zero` and `forUpTo_succ` (Laws/Ops.lean); the kernel evaluates it all the same. -/
@[irreducible] def forUpTo {α : Type} (step : Nat → α → α) : Nat → α → α
  | 0, x => x
  | k + 1, x => step k (forUpTo step k x)

/-- `MemRead` of `M` or `R`: the word at a word index (R12, R51). -/
def Bank.read (v : Bank) (i : PoolIndex) : W64 := v[i.toNat]'i.isLt

/-- `MemWrite` of `M` or `R` (R12, R51). -/
def Bank.write (v : Bank) (i : PoolIndex) (x : W64) : Bank := v.set i.toNat x i.isLt

/-- `X[j]` (R12, R26). -/
def Scratch.read (v : Scratch) (j : Fin 8) : W64 := v[j.val]

/-- `X[j] <- x` (R12, R26). -/
def Scratch.write (v : Scratch) (j : Fin 8) (x : W64) : Scratch := v.set j.val x

/-- The same word in all eight lanes (R144). -/
def Scratch.fill (x : W64) : Scratch := Vector.replicate 8 x

/-- The bank with every word 0 (R148). -/
def Bank.zero : Bank := Vector.replicate 256 0

namespace Machine

/-- What a byte of `S` that nothing has written since reset reads as (10_state R36: every byte 0). -/
def Memory.unlisted : Byte := 0

/-- The size of `S` in bytes (10_state R29, 20_memory R50). -/
def Memory.size : Nat := 1024

/-- `MemRead(S, k, 1)` (R12). -/
def Memory.read : Memory → Nat → Byte
  | [], _ => Memory.unlisted
  | (k, v) :: rest, a => if a = k then v else Memory.read rest a

/-- Put a cell in front, unless it holds what an unlisted address reads as. -/
def Memory.cons (a : Nat) (v : Byte) (rest : Memory) : Memory :=
  if v = Memory.unlisted then rest else (a, v) :: rest

/-- `MemWrite(S, k, 1, v)` (R12), keeping the canonical form. -/
def Memory.write : Memory → Nat → Byte → Memory
  | [], a, v => Memory.cons a v []
  | (k, w) :: rest, a, v =>
    if a < k then Memory.cons a v ((k, w) :: rest)
    else if a = k then Memory.cons a v rest
    else (k, w) :: Memory.write rest a v

/-- The cells rise strictly from `lo`, stay below the size of `S`, and none holds what an unlisted
address reads as. -/
def Memory.wfFrom : Nat → Memory → Bool
  | _, [] => true
  | lo, (k, v) :: rest =>
    decide (lo ≤ k) && decide (k < Memory.size) && decide (v ≠ Memory.unlisted) &&
      Memory.wfFrom (k + 1) rest

/-- The canonical form of `S`: equal contents are equal lists. -/
def Memory.wf (m : Memory) : Bool := Memory.wfFrom 0 m

/-- The 4-bit code of a status (30_encoding R88). -/
def Status.code : Status → BitVec 4
  | .ok => 0x0#4
  | .errIllegal => 0x1#4
  | .errNotSeeded => 0x2#4

/-- The 68-bit response word: `resp[67:64]` status, `resp[63:0]` data (30_encoding R87). -/
def Response.word (r : Response) : BitVec 68 := r.status.code ++ r.data

/-- The machine with another engine state, the channels as they are. -/
def State.withEngine (s : State) (e : Engine) : State := { s with engine := e }

/-- The machine after taking the oldest input, `rest` being what is left. -/
def State.withInputs (s : State) (rest : List Input) : State := { s with inputs := rest }

/-- `respond(status, data)`: the command ends with this response (R12, 30_encoding R87). -/
def State.respond (s : State) (status : Status) (data : W64) : State :=
  { s with responses := s.responses ++ [{ status := status, data := data }] }

/-- A refused command: `respond(status, 0)` and no state change (60_exceptions R201, R206). This is the
engine's one shared operation for an error; nothing is saved and nothing returns from it. -/
def State.refuse (s : State) (status : Status) : State := s.respond status 0

/-- An illegal word is answered ERR_ILLEGAL, whichever group of R84 it falls under and whether or not
the engine is seeded (60_exceptions R202, R205). -/
def State.answerIllegal (s : State) (_ : Illegal) : State := s.refuse .errIllegal

/-- Reset is asserted and released (70_reset_and_hazards R230): the command in progress, if any, is
abandoned with no response; the engine is in the reset state, its unspecified part a free value
(log entry 2). The channels keep what the host has issued later and what it was answered before
(log entry 3). -/
def State.takeReset (s : State) (_inProgress : Option CmdWord) : State :=
  { s with engine := Engine.reset (Config.resetContents s.resets), resets := s.resets + 1 }

end Machine

end Sys2Proof
end

