-- ==== Sys2Proof/Machine/Operands.lean ====
section
/-! DEFINITION. The fixed constants (00_scope R9), the index fields of a data word
(40_word_arithmetic R119 to R121), the clamped length and the effective seed (42_init_reseed R141),
and the assembly of seed bytes into words (20_memory R53, R54). -/

namespace Sys2Proof.Machine

/-- `SEED_MAX_BYTES` (R9; UNVERIFIED, log entry 11). -/
def seedMaxBytes : Nat := 1024

/-- `GOLDEN` (R9, R144). -/
def golden : W64 := 0x9E3779B97F4A7C13#64

/-- `SHIFT[0..7]` (R9, R131). -/
def mixShift (line : Fin 8) : Nat := (#v[9, 9, 23, 15, 14, 20, 17, 14] : Vector Nat 8)[line.val]

/-- `PREMIX_ROUNDS` (R9, R144). -/
def premixRounds : Nat := 4

/-- `BLOCKS` (R9, R145). -/
def blocks : Nat := 32

/-- `XW` (R9). -/
def blockWords : Nat := 8

/-- `SZ` (R9). -/
def poolWords : Nat := 256

/-- The index of word `j` of block `k`: `8k + j` (R67, R145). -/
def blockIndex (k j : Nat) : PoolIndex := BitVec.ofNat 8 (8 * k + j)

/-- `lowIndex(x) = x[10:3]` (R119). -/
def lowIndex (x : W64) : PoolIndex := x.extractLsb' 3 8

/-- `highIndex(y) = y[18:11]` (R120). -/
def highIndex (y : W64) : PoolIndex := y.extractLsb' 11 8

/-- `partner(i)`: `i + 128` in the first half, `i - 128` in the second (R121, R172). -/
def partner (i : PoolIndex) : PoolIndex := if i < 128#8 then i + 128#8 else i - 128#8

/-- `L' = min(len, 1024)` (R82, R141). -/
def clampLen (len : Nat) : Nat := min len seedMaxBytes

/-- The effective seed: `S[0 .. min(len, 1024) - 1]`, read when the command executes (R141). -/
def effectiveSeed (S : Memory) (len : SeedLen) : List Byte :=
  (List.range (clampLen len.toNat)).map S.read

/-- The little-endian assembly of at most eight bytes, the first byte in bits 7:0, missing high bytes
zero (R53, R54). -/
def littleEndian : List Byte → W64
  | [] => 0
  | b :: rest => b.setWidth 64 + (littleEndian rest <<< 8)

/-- Group `g` of a seed: the bytes `seed[8g .. 8g+7]`, or as many of them as there are (R53, R54). -/
def seedGroup (seed : List Byte) (g : Nat) : List Byte := (seed.drop (8 * g)).take 8

end Sys2Proof.Machine
end

