-- ==== Sys2Proof/Machine/Flags.lean ====
section
/-! DEFINITION. The engine has no condition codes (10_state R32). Two predicates on the state steer
behaviour: `n == 0`, read by NEXT only, and `seeded`, read by NEXT and RESEED. -/

namespace Sys2Proof.Machine

/-- `n == 0`: the batch is exhausted (R32, R190). -/
def Engine.exhausted (e : Engine) : Bool := e.n == 0#9

/-- `seeded <- 1` (R33, R160). -/
def Engine.setSeeded (e : Engine) : Engine := { e with seeded := true }

/-- NEXT and RESEED run only on a seeded engine: otherwise the command is refused with ERR_NOT_SEEDED
and `run` is not performed (60_exceptions R203). -/
def State.ifSeeded (s : State) (run : State → State) : State :=
  match s.engine.seeded with
  | true => run s
  | false => s.refuse .errNotSeeded

end Sys2Proof.Machine
end

