-- ==== Sys2Proof/Machine/Updater.lean ====
section
/-! DEFINITION. The State Updater UPDATE (43_state_updater). -/

namespace Sys2Proof.Machine

/-- What the word steps of one UPDATE work on: the working copies `a'` and `b'` (R171), the pool and
the result buffer. It is local to the command, not state (10_state R35). -/
structure UpdateWork where
  a : W64
  b : W64
  M : Bank
  R : Bank
  deriving DecidableEq, Repr

/-- The accumulator transform of word `i`, before the partner word is added: four transforms that take
turns by `i mod 4` (R173). -/
def accumulate (i : Nat) (a : W64) : W64 :=
  match i % 4 with
  | 0 => ~~~(a ^^^ (a <<< 21))
  | 1 => a ^^^ (a >>> 5)
  | 2 => a ^^^ (a <<< 12)
  | _ => a ^^^ (a >>> 33)

/-- The word step of one index (R173, R174). `M[highIndex]` is read after the write of `M[i]`, and
every other read before it (R175). -/
def updateStep (i : Nat) (w : UpdateWork) : UpdateWork :=
  let j : PoolIndex := BitVec.ofNat 8 i
  let x := Bank.read w.M j
  let a := accumulate i w.a + Bank.read w.M (partner j)
  let y := Bank.read w.M (lowIndex x) + a + w.b
  let M := Bank.write w.M j y
  let b := Bank.read M (highIndex y) + x
  { a := a, b := b, M := M, R := Bank.write w.R j b }

/-- The prologue: `c` incremented first, then added to `b` (R171). -/
def updateStart (e : Engine) : UpdateWork := { a := e.a, b := e.b + (e.c + 1), M := e.M, R := e.R }

/-- The 256 word steps, ascending (R176). -/
def updateSteps (e : Engine) : UpdateWork := forUpTo updateStep poolWords (updateStart e)

/-- UPDATE, complete: prologue, word steps, epilogue (R177, R178). -/
def Engine.update (e : Engine) : Engine :=
  let w := updateSteps e
  { e with a := w.a, b := w.b, c := e.c + 1, n := 256#9, M := w.M, R := w.R }

/-- UPDATE as a row of the opcode table: no encoding and no response (R89). -/
def execUpdate (s : State) : Host.Outcome State Fault Refusal := .next (s.withEngine s.engine.update)

end Sys2Proof.Machine
end

