-- ==== Sys2Proof/Machine/Draw.lean ====
section
/-! DEFINITION. The draw command NEXT (44_draw). -/

namespace Sys2Proof.Machine

/-- `if n == 0: call UPDATE` (R190). -/
def Engine.refill (e : Engine) : Engine :=
  match e.exhausted with
  | true => e.update
  | false => e

/-- `n <- n - 1` (R190). -/
def Engine.consume (e : Engine) : Engine := { e with n := e.n - 1 }

/-- `R[n]`, indexed by the `n` there is now. The index is the low eight bits of `n` (10_state R30:
masking with the size minus one); for the values 0 to 255 the rules reach it is `n` itself
(DESIGN CHOICE, log entry 9). -/
def Engine.drawn (e : Engine) : W64 := Bank.read e.R (e.n.setWidth 8)

/-- NEXT (R190): refused until the engine is seeded. -/
def execNext (s : State) : Host.Outcome State Fault Refusal :=
  .next (s.ifSeeded fun s =>
    let e := s.engine.refill.consume
    (s.withEngine e).respond .ok e.drawn)

end Sys2Proof.Machine
end

