-- ==== Sys2Proof/Machine/Scrambler.lean ====
section
/-! DEFINITION. The Seed Scrambler MIX (41_seed_scrambler). -/

namespace Sys2Proof.Machine

/-- The shifted word of line `i`: even lines shift right, odd lines shift left (R131, R132). -/
def mixShifted (i : Fin 8) (x : W64) : W64 :=
  if i.val % 2 = 0 then x >>> mixShift i else x <<< mixShift i

/-- One line of MIX: three assignments in the order written, indices modulo 8 (R132). -/
def mixLine (i : Fin 8) (x : Scratch) : Scratch :=
  let x := Scratch.write x i (Scratch.read x i - Scratch.read x (i + 4))
  let x := Scratch.write x (i + 5) (Scratch.read x (i + 5) ^^^ mixShifted i (Scratch.read x (i + 7)))
  Scratch.write x (i + 7) (Scratch.read x (i + 7) + Scratch.read x i)

/-- MIX: the eight lines 0 to 7 in this order (R132). -/
def scramble (x : Scratch) : Scratch := forUpTo (fun k => mixLine (Fin.ofNat 8 k)) 8 x

/-- MIX on the engine: reads and writes `X` only (R130, R134). -/
def Engine.mix (e : Engine) : Engine := { e with X := scramble e.X }

/-- MIX as a row of the opcode table: no encoding and no response (R89). -/
def execMix (s : State) : Host.Outcome State Fault Refusal := .next (s.withEngine s.engine.mix)

end Sys2Proof.Machine
end

