-- ==== Sys2Proof/Machine/Reseeder.lean ====
section
/-! DEFINITION. Seed loading, the State Initializer and the Reseeder: SEEDW, FOLD, PREMIX, DERIVE1,
DERIVE2, RESEED, INIT (42_init_reseed). -/

namespace Sys2Proof.Machine

/-- `R[g] <- R[g] ^ word` for group `g` of a seed (R142, R143). -/
def foldGroup (seed : List Byte) (g : Nat) (R : Bank) : Bank :=
  Bank.write R (BitVec.ofNat 8 g)
    (Bank.read R (BitVec.ofNat 8 g) ^^^ littleEndian (seedGroup seed g))

/-- FOLD over any byte sequence: clamp, full groups ascending, then the partial group if there is one
(R142, R143). -/
def foldSeed (seed : List Byte) (R : Bank) : Bank :=
  let clamped := seed.take seedMaxBytes
  let q := clamped.length / 8
  let R := forUpTo (foldGroup clamped) q R
  if clamped.length % 8 = 0 then R else foldGroup clamped q R

/-- FOLD on the engine: reads the seed, reads and writes `R` (R37). -/
def Engine.fold (e : Engine) (seed : List Byte) : Engine := { e with R := foldSeed seed e.R }

/-- The constant in all eight slots, scrambled four times (R144). -/
def premixed : Scratch := forUpTo (fun _ => scramble) premixRounds (Scratch.fill golden)

/-- PREMIX on the engine: writes `X`, reads nothing (R144). -/
def Engine.premix (e : Engine) : Engine := { e with X := premixed }

/-- `for j in 0..7: X[j] <- X[j] + src[8k + j]` (R145, R146). -/
def addBlock (src : Bank) (k : Nat) (x : Scratch) : Scratch :=
  forUpTo (fun j x => Scratch.write x (Fin.ofNat 8 j)
    (Scratch.read x (Fin.ofNat 8 j) + Bank.read src (blockIndex k j))) blockWords x

/-- `for j in 0..7: M[8k + j] <- X[j]` (R145, R146). -/
def copyBlock (x : Scratch) (k : Nat) (M : Bank) : Bank :=
  forUpTo (fun j M => Bank.write M (blockIndex k j) (Scratch.read x (Fin.ofNat 8 j))) blockWords M

/-- One block of a derivation pass whose source is `src`: add, MIX, copy (R145, R146). -/
def Engine.deriveBlock (src : Bank) (k : Nat) (e : Engine) : Engine :=
  let x := scramble (addBlock src k e.X)
  { e with X := x, M := copyBlock x k e.M }

/-- DERIVE1: blocks ascending, source `R`, `X` carried from block to block (R145, R150). -/
def Engine.derive1 (e : Engine) : Engine := forUpTo (fun k e => e.deriveBlock e.R k) blocks e

/-- DERIVE2: the same with source `M`, each block read before it is overwritten (R146, R237). -/
def Engine.derive2 (e : Engine) : Engine := forUpTo (fun k e => e.deriveBlock e.M k) blocks e

/-- `Reseed(seed)` (R147): FOLD, PREMIX, DERIVE1, DERIVE2, UPDATE. -/
def Engine.reseed (e : Engine) (seed : List Byte) : Engine :=
  (e.fold seed).premix.derive1.derive2.update

/-- `a`, `b`, `c` and all of `R` set to 0 (R148). -/
def Engine.clear (e : Engine) : Engine := { e with a := 0, b := 0, c := 0, R := Bank.zero }

/-- `Initialize(seed)` (R148). -/
def Engine.initialize (e : Engine) (seed : List Byte) : Engine := e.clear.reseed seed

/-- `S[addr] <- byte` (R140). -/
def Engine.writeSeed (e : Engine) (addr : SeedAddr) (byte : Byte) : Engine :=
  { e with S := Memory.write e.S addr.toNat byte }

/-- SEEDW `addr, byte` (R140). -/
def execSeedw (addr : SeedAddr) (byte : Byte) (s : State) : Host.Outcome State Fault Refusal :=
  .next ((s.withEngine (s.engine.writeSeed addr byte)).respond .ok 0)

/-- INIT `len` (R160): accepted in every state. -/
def execInit (len : SeedLen) (s : State) : Host.Outcome State Fault Refusal :=
  .next ((s.withEngine
    (s.engine.initialize (effectiveSeed s.engine.S len)).setSeeded).respond .ok 0)

/-- RESEED `len` (R149): refused until the engine is seeded. -/
def execReseed (len : SeedLen) (s : State) : Host.Outcome State Fault Refusal :=
  .next (s.ifSeeded fun s =>
    (s.withEngine (s.engine.reseed (effectiveSeed s.engine.S len))).respond .ok 0)

/-- FOLD as a row of the opcode table, over the effective seed of `len` (R141, R142, R143): no encoding
and no response (R89). -/
def execFold (len : SeedLen) (s : State) : Host.Outcome State Fault Refusal :=
  .next (s.withEngine (s.engine.fold (effectiveSeed s.engine.S len)))

/-- PREMIX as a row of the opcode table (R144): no encoding and no response (R89). -/
def execPremix (s : State) : Host.Outcome State Fault Refusal := .next (s.withEngine s.engine.premix)

/-- DERIVE1 as a row of the opcode table (R145): no encoding and no response (R89). -/
def execDerive1 (s : State) : Host.Outcome State Fault Refusal :=
  .next (s.withEngine s.engine.derive1)

/-- DERIVE2 as a row of the opcode table (R146): no encoding and no response (R89). -/
def execDerive2 (s : State) : Host.Outcome State Fault Refusal :=
  .next (s.withEngine s.engine.derive2)

end Sys2Proof.Machine
end

