-- ==== Sys2Proof/Machine/Dispatch.lean ====
section
/-! DEFINITION. One arm per row of the opcode table. -/

namespace Sys2Proof.Machine

def exec (i : Instr) (s : State) : Host.Outcome State Fault Refusal :=
  match i with
  | .next => Sys2Proof.Machine.execNext s
  | .init len => Sys2Proof.Machine.execInit len s
  | .reseed len => Sys2Proof.Machine.execReseed len s
  | .seedw addr byte => Sys2Proof.Machine.execSeedw addr byte s
  | .mix => Sys2Proof.Machine.execMix s
  | .fold len => Sys2Proof.Machine.execFold len s
  | .premix => Sys2Proof.Machine.execPremix s
  | .derive1 => Sys2Proof.Machine.execDerive1 s
  | .derive2 => Sys2Proof.Machine.execDerive2 s
  | .update => Sys2Proof.Machine.execUpdate s

end Sys2Proof.Machine
end

