-- ==== Sys2Proof/Machine/Step.lean ====
section
/-! DEFINITION. One step: the engine takes the oldest input of its channel and performs it from start
to end (00_scope R6, R7; 20_memory R59). -/

namespace Sys2Proof.Machine

/-- One step. With nothing issued the engine is idle and holds its state (60_exceptions R214,
70_reset_and_hazards R243; DEDUCED, log entry 6). -/
def step (s : State) : Host.Outcome State Fault Refusal :=
  match s.inputs with
  | [] => .next s
  | .reset inProgress :: rest => .next ((s.withInputs rest).takeReset inProgress)
  | .command w :: rest =>
    match decode w with
    | .ok i => exec i (s.withInputs rest)
    | .error r => .next ((s.withInputs rest).answerIllegal r)

/-- The machine with a command word as the oldest input, so that the very next step takes it: the host
has issued that word (DESIGN CHOICE, log entry 5). -/
def State.withFetchWord (s : State) (nbits w : Nat) : State :=
  s.withInputs (.command (tableWord nbits w) :: s.inputs)

end Sys2Proof.Machine
end

