-- ==== Sys2Proof/Machine/Pseudo.lean ====
section
/-! DEFINITION. The assembler's notation and the pseudo-instructions with their expansions
(30_encoding R91, R92). The engine knows nothing of them: an expansion is a list of commands that the
host issues one after another. -/

namespace Sys2Proof.Machine

/-- The pseudo-instructions of R92. -/
inductive Pseudo where
  /-- `SEED b0, ..., b(k-1)`, `k <= 1024`. -/
  | seed (bytes : List Byte)
  /-- `INITB b0, ..., b(k-1)`: `Initialize(seedBytes)`. -/
  | initb (bytes : List Byte)
  /-- `RESEEDB b0, ..., b(k-1)`: `Reseed(state, seedBytes)`. -/
  | reseedb (bytes : List Byte)
  /-- `INIT64 v`: the seeding compatibility contract (42_init_reseed R158). -/
  | init64 (v : W64)
  /-- `RESEED64 v`. -/
  | reseed64 (v : W64)
  /-- `DRAW k`. -/
  | draw (k : Nat)
  deriving DecidableEq, Repr

/-- The length operand for a seed of `k` bytes: `k`, or, for a seed longer than the 28-bit field can
say, the largest value of the field, which the clamp makes the same (R82; DEDUCED, log entry 14). -/
def lenOperand (k : Nat) : SeedLen := BitVec.ofNat 28 (min k (2 ^ 28 - 1))

/-- `SEEDW pos, b0; SEEDW pos+1, b1; ...` (R92). -/
def seedWrites : Nat → List Byte → List Instr
  | _, [] => []
  | pos, b :: rest => .seedw (BitVec.ofNat 10 pos) b :: seedWrites (pos + 1) rest

/-- The writes of a seed: only its first 1024 bytes are written (R92). -/
def expandSeed (bytes : List Byte) : List Instr := seedWrites 0 (bytes.take seedMaxBytes)

/-- The 8 bytes of an integer seed, least significant first (R158, R92). -/
def integerSeed (v : W64) : List Byte := (List.range 8).map fun j => v.extractLsb' (8 * j) 8

/-- The expansion of a pseudo-instruction (R92). -/
def Pseudo.expand : Pseudo → List Instr
  | .seed bytes => expandSeed bytes
  | .initb bytes => expandSeed bytes ++ [.init (lenOperand bytes.length)]
  | .reseedb bytes => expandSeed bytes ++ [.reseed (lenOperand bytes.length)]
  | .init64 v => expandSeed (integerSeed v) ++ [.init 8#28]
  | .reseed64 v => expandSeed (integerSeed v) ++ [.reseed 8#28]
  | .draw k => List.replicate k .next

/-- The inputs by which the host issues a list of instructions: an instruction with no encoding cannot
be issued (R89). -/
def issue (is : List Instr) : List Input := (is.filterMap encode).map .command

/-- One instruction in the notation of R91, numbers in decimal. The internal operations have no
assembler form (R89). -/
def render : Instr → Option String
  | .next => some "NEXT"
  | .init len => some ("INIT " ++ toString len.toNat)
  | .reseed len => some ("RESEED " ++ toString len.toNat)
  | .seedw addr byte => some ("SEEDW " ++ toString addr.toNat ++ ", " ++ toString byte.toNat)
  | .mix => none
  | .fold _ => none
  | .premix => none
  | .derive1 => none
  | .derive2 => none
  | .update => none

end Sys2Proof.Machine
end

