-- ==== Sys2Proof/Safety.lean ====
section
/-! DEFINITION. What the statements speak of: the invariant of the machine (10_state R22, R30;
30_encoding R87), what two machines with different unspecified contents have in common (10_state R36),
and runs (70_reset_and_hazards R243). -/

namespace Sys2Proof.Machine

/-- The seed buffer keeps its canonical form; a seeded engine has `n` in 0..256 (R30) and `b == R[255]`
(R22: nothing writes either between one UPDATE and the next); a response that is not OK carries no
data (R87). -/
structure State.Inv (s : State) : Prop where
  seedBuffer : s.engine.S.wf = true
  count : s.engine.seeded = true → s.engine.n ≤ 256#9
  lastWord : s.engine.seeded = true → s.engine.b = Bank.read s.engine.R 255#8
  noData : ∀ r ∈ s.responses, r.status ≠ .ok → r.data = 0

/-- Two engines that agree on all that R36 specifies, and, once seeded, on everything but `X`, which
carries no meaning between commands (R27). -/
structure Engine.Agree (e f : Engine) : Prop where
  seedBuffer : e.S = f.S
  seeded : e.seeded = f.seeded
  a : e.seeded = true → e.a = f.a
  b : e.seeded = true → e.b = f.b
  c : e.seeded = true → e.c = f.c
  n : e.seeded = true → e.n = f.n
  pool : e.seeded = true → e.M = f.M
  results : e.seeded = true → e.R = f.R

/-- Two machines that the host cannot tell apart: same channels, engines that agree. -/
structure State.Agree (s t : State) : Prop where
  engine : s.engine.Agree t.engine
  inputs : s.inputs = t.inputs
  responses : s.responses = t.responses

/-- A run of `k` steps: a finite sequence of inputs performed one after another (R243). -/
def run (k : Nat) (s : State) : Host.Outcome State Fault Refusal := Host.Core.run Sys2Proof.core k s

end Sys2Proof.Machine
end

