-- ==== Sys2Proof/Certificates/Slice0/Obligations.lean ====
section
/-! DEFINITION. The statements for the provers. Those that need a second, independent reading of the
spec's pseudocode take it from the definitions of `Sys2Proof.Spec` at the head of this file, which are
written over plain functions and not over the model's memories. -/

namespace Sys2Proof.Spec

open Sys2Proof Sys2Proof.Machine

/-- The machine with one more response (R87). -/
def answered (s : State) (status : Status) (data : W64) : State :=
  { s with responses := s.responses ++ [⟨status, data⟩] }

/-- The 24 assignments of R133, top to bottom, left to right. -/
def mix24 (x : Scratch) : Scratch :=
  let x0 := x[0]; let x1 := x[1]; let x2 := x[2]; let x3 := x[3]
  let x4 := x[4]; let x5 := x[5]; let x6 := x[6]; let x7 := x[7]
  let x0 := x0 - x4; let x5 := x5 ^^^ (x7 >>> 9); let x7 := x7 + x0
  let x1 := x1 - x5; let x6 := x6 ^^^ (x0 <<< 9); let x0 := x0 + x1
  let x2 := x2 - x6; let x7 := x7 ^^^ (x1 >>> 23); let x1 := x1 + x2
  let x3 := x3 - x7; let x0 := x0 ^^^ (x2 <<< 15); let x2 := x2 + x3
  let x4 := x4 - x0; let x1 := x1 ^^^ (x3 >>> 14); let x3 := x3 + x4
  let x5 := x5 - x1; let x2 := x2 ^^^ (x4 <<< 20); let x4 := x4 + x5
  let x6 := x6 - x2; let x3 := x3 ^^^ (x5 >>> 17); let x5 := x5 + x6
  let x7 := x7 - x3; let x4 := x4 ^^^ (x6 <<< 14); let x6 := x6 + x7
  #v[x0, x1, x2, x3, x4, x5, x6, x7]

/-- The word of `count` seed bytes from position `at0`, little-endian: the sum of R53 and R54. -/
def seedWord (byteAt : Nat → Byte) (at0 count : Nat) : W64 :=
  BitVec.ofNat 64 (((List.range count).map fun j => (byteAt (at0 + j)).toNat * 2 ^ (8 * j)).sum)

/-- What FOLD of a seed of `L` bytes makes of the word `old` at index `i` of `R` (R142, R143). -/
def foldedWord (byteAt : Nat → Byte) (L : Nat) (i : Nat) (old : W64) : W64 :=
  let L' := min L 1024
  if i < L' / 8 then old ^^^ seedWord byteAt (8 * i) 8
  else if i = L' / 8 ∧ L' % 8 > 0 then old ^^^ seedWord byteAt (8 * (L' / 8)) (L' % 8)
  else old

/-- The scratch buffer before block `k` of a derivation pass whose source words are `src`, starting
from `x` (R145, R146, R150). -/
def passScratch (src : Nat → W64) (x : Scratch) : Nat → Scratch
  | 0 => x
  | k + 1 => mix24 (Vector.ofFn fun j : Fin 8 => (passScratch src x k)[j] + src (8 * k + j))

/-- The new `a'` of word `i` (R173). -/
def newA (i : Nat) (a partnerWord : W64) : W64 :=
  if i % 4 = 0 then ~~~(a ^^^ (a <<< 21)) + partnerWord
  else if i % 4 = 1 then (a ^^^ (a >>> 5)) + partnerWord
  else if i % 4 = 2 then (a ^^^ (a <<< 12)) + partnerWord
  else (a ^^^ (a >>> 33)) + partnerWord

/-- The sequences of R178: `a i`, `b i`, `m i` are the working copies and the pool before word step
`i`, over a pool that is a plain function of the index. -/
structure UpdateRun (e : Engine) (a b : Nat → W64) (m : Nat → Nat → W64) : Prop where
  startA : a 0 = e.a
  startB : b 0 = e.b + (e.c + 1)
  startM : ∀ j : PoolIndex, m 0 j.toNat = Bank.read e.M j
  stepA : ∀ i < 256, a (i + 1) = newA i (a i) (m i (if i < 128 then i + 128 else i - 128))
  stepM : ∀ i < 256, ∀ j < 256, m (i + 1) j =
    if j = i then m i ((m i i >>> 3) &&& 255).toNat + a (i + 1) + b i else m i j
  stepB : ∀ i < 256, b (i + 1) = m (i + 1) ((m (i + 1) i >>> 11) &&& 255).toNat + m i i

/-- R84's list of the illegal words. -/
def illegalWord (w : CmdWord) : Prop :=
  (w &&& 0xF = 0 ∨ 5 ≤ (w &&& 0xF).toNat) ∨
  (w &&& 0xF = 1 ∧ w >>> 4 ≠ 0) ∨
  (w &&& 0xF = 4 ∧ (w &&& 0xFF000000 ≠ 0 ∨ w &&& 0x0000C000 ≠ 0))

/-- Two engines with the same generator state and the same `seeded` (R38). -/
def sameGenerator (e f : Engine) : Prop :=
  e.a = f.a ∧ e.b = f.b ∧ e.c = f.c ∧ e.n = f.n ∧ e.M = f.M ∧ e.R = f.R ∧ e.seeded = f.seeded

end Sys2Proof.Spec

open Sys2Proof Sys2Proof.Machine Sys2Proof.Spec

/-! ## Encoding -/

/-- The command words of 30_encoding R91 and 95_test_vectors section 8 decode as the spec says. -/
def Obligations.SpecWordsDecode : Prop :=
  decode 0x00000001#32 = .ok .next ∧ decode 0x00000082#32 = .ok (.init 8) ∧
  decode 0x00004062#32 = .ok (.init 1030) ∧ decode 0x00000033#32 = .ok (.reseed 3) ∧
  decode 0x002A0004#32 = .ok (.seedw 0 42) ∧ decode 0x00FF3FF4#32 = .ok (.seedw 1023 0xFF)

/-- Every host command, with every value of its operands, has a word, and that word decodes to it. -/
def Obligations.EncodedCommandsDecodeBack : Prop :=
  ∀ i : Instr, i.wellFormed = true → ∃ w, encode i = some w ∧ decode w = .ok i

/-- Every legal word is the encoding of what it decodes to: each command has one word. -/
def Obligations.DecodedWordsEncodeBack : Prop :=
  ∀ (w : CmdWord) (i : Instr), decode w = .ok i → encode i = some w

/-- R85, R86: a word selects the row whose mask and match it meets, with that row's operands, and a
word that meets none is illegal. -/
def Obligations.OpcodeMapSelectsRow : Prop :=
  ∀ w : CmdWord,
    (w &&& 0xFFFFFFFF = 0x00000001 → decode w = .ok .next) ∧
    (w &&& 0x0000000F = 0x00000002 → decode w = .ok (.init ((w >>> 4).setWidth 28))) ∧
    (w &&& 0x0000000F = 0x00000003 → decode w = .ok (.reseed ((w >>> 4).setWidth 28))) ∧
    (w &&& 0xFF00C00F = 0x00000004 →
      decode w = .ok (.seedw ((w >>> 4).setWidth 10) ((w >>> 16).setWidth 8))) ∧
    (w &&& 0xFFFFFFFF ≠ 0x00000001 → w &&& 0x0000000F ≠ 0x00000002 →
      w &&& 0x0000000F ≠ 0x00000003 → w &&& 0xFF00C00F ≠ 0x00000004 →
      ∃ r, decode w = .error r)

/-- R84, R202: exactly the listed words are illegal, and one is answered ERR_ILLEGAL with nothing
changed, whether or not the engine is seeded. -/
def Obligations.IllegalWordsAreAnswered : Prop :=
  ∀ (w : CmdWord),
    (illegalWord w ↔ ∃ r, decode w = .error r) ∧
    (illegalWord w → ∀ (s : State) (rest : List Input), s.inputs = .command w :: rest →
      step s = .next (answered { s with inputs := rest } .errIllegal 0))

/-- R89: a decoder never produces an internal operation, and none has a word. -/
def Obligations.InternalOperationsHaveNoWord : Prop :=
  (∀ (w : CmdWord) (i : Instr), decode w = .ok i →
    i ≠ .mix ∧ (∀ len, i ≠ .fold len) ∧ i ≠ .premix ∧ i ≠ .derive1 ∧ i ≠ .derive2 ∧ i ≠ .update) ∧
  encode .mix = none ∧ (∀ len, encode (.fold len) = none) ∧ encode .premix = none ∧
  encode .derive1 = none ∧ encode .derive2 = none ∧ encode .update = none

/-! ## The step and its responses -/

/-- A step on a legal word takes the word and is `exec` of the decoded command. -/
def Obligations.StepRunsDecodedCommand : Prop :=
  ∀ (s : State) (w : CmdWord) (rest : List Input) (i : Instr),
    s.inputs = .command w :: rest → decode w = .ok i →
    step s = exec i { s with inputs := rest }

/-- With nothing issued the engine holds its state (the model's reading, log entry 6). -/
def Obligations.IdleEngineHoldsItsState : Prop :=
  ∀ s : State, s.inputs = [] → step s = .next s

/-- Every command word, legal or not, in every state, gets exactly one response, after all earlier
ones, and the command is taken off the channel. -/
def Obligations.EveryCommandGetsOneResponse : Prop :=
  ∀ (s : State) (w : CmdWord) (rest : List Input), s.inputs = .command w :: rest →
    ∃ (t : State) (r : Response), step s = .next t ∧ t.inputs = rest ∧
      t.responses = s.responses ++ [r]

/-- R87: the response word is status above data, and only a NEXT answered OK carries data. The word that a
NEXT carries is read at the low eight bits of `n`: for an `n` above 256 before the draw, which no run
reaches once seeded (`StepKeepsInvariant`), that index is the model's choice (log entry 9). -/
def Obligations.OnlyDrawsCarryData : Prop :=
  (∀ r : Response, r.word.extractLsb' 64 4 = r.status.code ∧ r.word.extractLsb' 0 64 = r.data) ∧
  (∀ (s t : State) (w : CmdWord) (rest : List Input), s.inputs = .command w :: rest →
    step s = .next t → ∃ r : Response, t.responses = s.responses ++ [r] ∧
      (r.status = .ok ∧ decode w = .ok .next →
        r.data = Bank.read t.engine.R (t.engine.n.setWidth 8)) ∧
      (¬(r.status = .ok ∧ decode w = .ok .next) → r.data = 0))

/-- R88: the codes of the three statuses, and when each is given. -/
def Obligations.StatusSaysWhatHappened : Prop :=
  Status.ok.code = 0 ∧ Status.errIllegal.code = 1 ∧ Status.errNotSeeded.code = 2 ∧
  (∀ st : Status, st.code.toNat < 3) ∧
  ∀ (s t : State) (w : CmdWord) (rest : List Input), s.inputs = .command w :: rest →
    step s = .next t → ∃ r : Response, t.responses = s.responses ++ [r] ∧
      (r.status = .errIllegal ↔ ∃ x, decode w = .error x) ∧
      (r.status = .errNotSeeded ↔ s.engine.seeded = false ∧
        (decode w = .ok .next ∨ ∃ len, decode w = .ok (.reseed len)))

/-- The engine never halts: from every state, every number of steps answers a next state. -/
def Obligations.EngineNeverHalts : Prop :=
  ∀ (k : Nat) (s : State), ∃ t, run k s = .next t

/-- R201, R206: a refused command changes nothing but the channels, and its data is 0. -/
def Obligations.RefusedCommandsChangeNothing : Prop :=
  ∀ (s t : State) (w : CmdWord) (rest : List Input) (r : Response),
    s.inputs = .command w :: rest → step s = .next t → t.responses = s.responses ++ [r] →
    r.status ≠ .ok → t = answered { s with inputs := rest } r.status 0

/-! ## Reset -/

/-- R36: right after reset `seeded` is 0 and every byte of `S` is 0, whatever the unspecified state
holds. The contents that `State.reset` names and the empty channels are the model's choice (log entries 1
and 3). -/
def Obligations.ResetLeavesUnseededAndZeroSeed : Prop :=
  State.reset = State.resetWith namedResetContents ∧
  ∀ u : ResetContents, (State.resetWith u).engine.seeded = false ∧
    (∀ k, (State.resetWith u).engine.S.read k = 0) ∧
    (State.resetWith u).inputs = [] ∧ (State.resetWith u).responses = []

/-- R230: an asserted reset abandons the command in progress with no response and leaves the engine in
the reset state. That later inputs and earlier responses stay is the model's choice (log entries 3 and
4). -/
def Obligations.AssertedResetLeavesResetState : Prop :=
  ∀ (s : State) (inProgress : Option CmdWord) (rest : List Input),
    s.inputs = .reset inProgress :: rest →
    ∃ (t : State) (u : ResetContents), step s = .next t ∧ t.engine = Engine.reset u ∧
      t.engine.seeded = false ∧ (∀ k, t.engine.S.read k = 0) ∧
      t.inputs = rest ∧ t.responses = s.responses

/-! ## SEEDW -/

/-- R140: SEEDW writes one byte of `S` and nothing else, seeded or not, and is answered OK. -/
def Obligations.SeedwWritesOneByte : Prop :=
  ∀ (s : State) (addr : SeedAddr) (byte : Byte), s.engine.S.wf = true →
    ∃ S' : Memory,
      exec (.seedw addr byte) s =
        .next (answered { s with engine := { s.engine with S := S' } } .ok 0) ∧
      S'.wf = true ∧
      ∀ k, S'.read k = if k = addr.toNat then byte else s.engine.S.read k

/-- R140, R58: writing the same address twice keeps the later byte and leaves no trace of the earlier. -/
def Obligations.SeedwKeepsLaterByte : Prop :=
  ∀ (s t u v : State) (addr : SeedAddr) (b1 b2 : Byte), s.engine.S.wf = true →
    exec (.seedw addr b1) s = .next t → exec (.seedw addr b2) t = .next u →
    exec (.seedw addr b2) s = .next v → u.engine = v.engine

/-! ## MIX and PREMIX -/

/-- R133: MIX is the 24 assignments on `X`, and nothing else changes. -/
def Obligations.MixIsTwentyFourAssignments : Prop :=
  ∀ s : State, exec .mix s =
    .next { s with engine := { s.engine with X := mix24 s.engine.X } }

/-- R135 (a): the all-zero buffer is a fixed point of MIX. -/
def Obligations.MixKeepsZeroBuffer : Prop :=
  ∀ s : State, s.engine.X = Vector.replicate 8 0 → exec .mix s = .next s

/-- R144: PREMIX leaves in `X` the constant of all eight slots scrambled four times, which is the
table of that rule, and changes nothing else. -/
def Obligations.PremixLeavesTheConstant : Prop :=
  mix24 (mix24 (mix24 (mix24 (Vector.replicate 8 0x9E3779B97F4A7C13#64)))) =
    #v[0x647C4677A2884B7C#64, 0xB9F8B322C73AC862#64, 0x8C0EA5053D4712A0#64, 0xB29B2E824A595524#64,
       0x82F053DB8355E0CE#64, 0x48FE4A0FA5A09315#64, 0xAE985BF2CBFC89ED#64, 0x98F5704F6C44C0AB#64] ∧
  ∀ s : State, exec .premix s = .next { s with engine := { s.engine with
    X := mix24 (mix24 (mix24 (mix24 (Vector.replicate 8 0x9E3779B97F4A7C13#64)))) } }

/-! ## FOLD -/

/-- R142, R143: FOLD of any byte sequence exclusive-ors its full groups and its partial group into
`R`, little-endian, and leaves every other word. -/
def Obligations.FoldXorsSeedGroups : Prop :=
  ∀ (seed : List Byte) (R : Bank) (i : PoolIndex),
    Bank.read (foldSeed seed R) i =
      foldedWord (fun k => seed.getD k 0) seed.length i.toNat (Bank.read R i)

/-- R141 to R143: FOLD as an instruction folds the first `min(len, 1024)` bytes of `S`; it changes `R`
only, and of `R` only the words 0 to 127. -/
def Obligations.FoldReadsEffectiveSeed : Prop :=
  ∀ (s : State) (len : SeedLen), ∃ R' : Bank,
    exec (.fold len) s = .next { s with engine := { s.engine with R := R' } } ∧
    (∀ i : PoolIndex, Bank.read R' i =
      foldedWord s.engine.S.read len.toNat i.toNat (Bank.read s.engine.R i)) ∧
    ∀ i : PoolIndex, 128 ≤ i.toNat → Bank.read R' i = Bank.read s.engine.R i

/-- R155: zero bytes at the end of a seed do not matter. -/
def Obligations.TrailingZeroBytesDoNotMatter : Prop :=
  ∀ (e : Engine) (seed : List Byte) (k : Nat),
    e.initialize (seed ++ List.replicate k 0) = e.initialize seed ∧
    e.reseed (seed ++ List.replicate k 0) = e.reseed seed

/-! ## DERIVE1 and DERIVE2 -/

/-- R145, R150: DERIVE1 makes block `k` of `M` the scratch buffer after block `k`, the sums taken from
`R`; no word of the old `M` enters; only `M` and `X` change. -/
def Obligations.Derive1BuildsPoolFromResults : Prop :=
  ∀ s : State, ∃ M' : Bank,
    exec .derive1 s = .next { s with engine := { s.engine with
      M := M'
      X := passScratch (fun j => Bank.read s.engine.R (BitVec.ofNat 8 j)) s.engine.X 32 } } ∧
    ∀ k < 32, ∀ j : Fin 8, Bank.read M' (BitVec.ofNat 8 (8 * k + j)) =
      (passScratch (fun j => Bank.read s.engine.R (BitVec.ofNat 8 j)) s.engine.X (k + 1))[j]

/-- R146, R237: DERIVE2 is the same with the sums taken from `M` as it was before the pass: block `k`
is read before it is overwritten. -/
def Obligations.Derive2ReadsBlocksBeforeOverwriting : Prop :=
  ∀ s : State, ∃ M' : Bank,
    exec .derive2 s = .next { s with engine := { s.engine with
      M := M'
      X := passScratch (fun j => Bank.read s.engine.M (BitVec.ofNat 8 j)) s.engine.X 32 } } ∧
    ∀ k < 32, ∀ j : Fin 8, Bank.read M' (BitVec.ofNat 8 (8 * k + j)) =
      (passScratch (fun j => Bank.read s.engine.M (BitVec.ofNat 8 j)) s.engine.X (k + 1))[j]

/-! ## UPDATE -/

/-- R178: UPDATE computes the chain of 256 word steps and nothing else: whatever sequences satisfy the
rule's equations are what it stores. -/
def Obligations.UpdateIsTheWordChain : Prop :=
  ∀ s : State,
    (∃ a b m, UpdateRun s.engine a b m) ∧
    ∀ a b m, UpdateRun s.engine a b m → ∃ M' R' : Bank,
      exec .update s = .next { s with engine := { s.engine with
        a := a 256, b := b 256, c := s.engine.c + 1, n := 256, M := M', R := R' } } ∧
      ∀ i : PoolIndex, Bank.read M' i = m 256 i.toNat ∧ Bank.read R' i = b (i.toNat + 1)

/-- R177: after every UPDATE `b == R[255]` and `n == 256`. -/
def Obligations.UpdateLeavesLastWordInB : Prop :=
  ∀ s : State, ∃ t : State, exec .update s = .next t ∧ t.engine.n = 256 ∧
    t.engine.b = Bank.read t.engine.R 255

/-- R180: UPDATE is a function of `a`, `b`, `c`, `M` alone. -/
def Obligations.UpdateIgnoresOldResults : Prop :=
  ∀ (s s' t t' : State), s.engine.a = s'.engine.a → s.engine.b = s'.engine.b →
    s.engine.c = s'.engine.c → s.engine.M = s'.engine.M →
    exec .update s = .next t → exec .update s' = .next t' →
    t.engine.a = t'.engine.a ∧ t.engine.b = t'.engine.b ∧ t.engine.c = t'.engine.c ∧
    t.engine.n = t'.engine.n ∧ t.engine.M = t'.engine.M ∧ t.engine.R = t'.engine.R ∧
    t.engine.X = s.engine.X ∧ t.engine.S = s.engine.S ∧ t.engine.seeded = s.engine.seeded

/-- R119 to R121: the index fields of a data word and the partner index. -/
def Obligations.IndexFieldsAndPartner : Prop :=
  (∀ x : W64, (lowIndex x).setWidth 64 = (x >>> 3) &&& 255 ∧
    (lowIndex x).setWidth 64 = (x &&& 0x7F8) >>> 3) ∧
  (∀ y : W64, (highIndex y).setWidth 64 = (y >>> 11) &&& 255) ∧
  (∀ i : PoolIndex, (partner i).toNat = (if i.toNat < 128 then i.toNat + 128 else i.toNat - 128) ∧
    partner i = i ^^^ 128 ∧ partner i ≠ i)

/-! ## INIT and RESEED -/

/-- R149: RESEED is refused until the engine is seeded; on a seeded engine it is FOLD of the effective
seed, PREMIX, DERIVE1, DERIVE2, UPDATE one after another, answered OK; `c` advances by one, `n` is 256,
`seeded` and `S` stay. -/
def Obligations.ReseedRunsTheSequence : Prop :=
  ∀ (s : State) (len : SeedLen),
    encode (.reseed len) = some (len ++ 0b0011#4) ∧
    (s.engine.seeded = false → exec (.reseed len) s = .next (answered s .errNotSeeded 0)) ∧
    (s.engine.seeded = true → ∃ s1 s2 s3 s4 s5 : State,
      exec (.fold len) s = .next s1 ∧ exec .premix s1 = .next s2 ∧ exec .derive1 s2 = .next s3 ∧
      exec .derive2 s3 = .next s4 ∧ exec .update s4 = .next s5 ∧
      exec (.reseed len) s = .next (answered s5 .ok 0) ∧
      s5.engine.c = s.engine.c + 1 ∧ s5.engine.n = 256 ∧ s5.engine.seeded = true ∧
      s5.engine.S = s.engine.S ∧ s5.inputs = s.inputs ∧ s5.responses = s.responses)

/-- R148, R160: INIT, in every state, clears `a`, `b`, `c` and `R`, runs the same sequence, sets
`seeded` and is answered OK; `c` is 1, `n` is 256, `S` stays. -/
def Obligations.InitRunsTheSequence : Prop :=
  ∀ (s : State) (len : SeedLen), ∃ s1 s2 s3 s4 s5 : State,
    exec (.fold len) { s with engine := { s.engine with
      a := 0, b := 0, c := 0, R := Vector.replicate 256 0 } } = .next s1 ∧
    exec .premix s1 = .next s2 ∧ exec .derive1 s2 = .next s3 ∧
    exec .derive2 s3 = .next s4 ∧ exec .update s4 = .next s5 ∧
    exec (.init len) s =
      .next (answered { s5 with engine := { s5.engine with seeded := true } } .ok 0) ∧
    s5.engine.c = 1 ∧ s5.engine.n = 256 ∧ s5.engine.S = s.engine.S ∧
    s5.inputs = s.inputs ∧ s5.responses = s.responses ∧
    encode (.init len) = some (len ++ 0b0010#4)

/-- R203: NEXT and RESEED on an engine that is not seeded are refused, and change nothing; INIT and
SEEDW are answered OK all the same. -/
def Obligations.DrawAndReseedNeedSeeding : Prop :=
  ∀ (s : State) (len : SeedLen) (addr : SeedAddr) (byte : Byte), s.engine.seeded = false →
    exec .next s = .next (answered s .errNotSeeded 0) ∧
    exec (.reseed len) s = .next (answered s .errNotSeeded 0) ∧
    (∃ e : Engine, exec (.init len) s = .next (answered { s with engine := e } .ok 0)) ∧
    ∃ e : Engine, exec (.seedw addr byte) s = .next (answered { s with engine := e } .ok 0)

/-- R27: after INIT, and after a RESEED that runs, `X` is the last block of the pool as it stood when
DERIVE2 ended. -/
def Obligations.ScratchEndsAsLastPoolBlock : Prop :=
  ∀ (s t : State), exec .derive2 s = .next t →
    ∀ j : Fin 8, t.engine.X[j] = Bank.read t.engine.M (BitVec.ofNat 8 (248 + j))

/-- R38: INIT makes the generator a function of the effective seed alone. The last clause, on `X`, is not
R38's: it rests on keeping `X` between commands with the value R27 gives, where 93_implementation_defined
U2 allows any value (log entry 8). -/
def Obligations.InitDependsOnEffectiveSeedOnly : Prop :=
  ∀ (s s' t t' : State) (len len' : SeedLen),
    min len.toNat 1024 = min len'.toNat 1024 →
    (∀ k < min len.toNat 1024, s.engine.S.read k = s'.engine.S.read k) →
    exec (.init len) s = .next t → exec (.init len') s' = .next t' →
    sameGenerator t.engine t'.engine ∧ t.engine.X = t'.engine.X

/-- R151: the outcome of Reseed does not depend on the old `M`, `n` or `X`, and the outcome of
Initialize depends on the seed only. -/
def Obligations.ReseedIgnoresOldPool : Prop :=
  ∀ (e f : Engine) (seed : List Byte), e.seeded = f.seeded →
    (e.a = f.a → e.b = f.b → e.c = f.c → e.R = f.R →
      sameGenerator (e.reseed seed) (f.reseed seed) ∧ (e.reseed seed).X = (f.reseed seed).X) ∧
    sameGenerator (e.initialize seed) (f.initialize seed) ∧
    (e.initialize seed).X = (f.initialize seed).X

/-- R58: INIT is idempotent for a fixed `S` and `len`. -/
def Obligations.InitTwiceIsInitOnce : Prop :=
  ∀ (s t u : State) (len : SeedLen), exec (.init len) s = .next t →
    exec (.init len) t = .next u → u.engine = t.engine

/-- R154: a byte sequence longer than 1024 bytes seeds as its first 1024 bytes do; any length operand of
1024 or more behaves exactly as 1024, and the response is OK. -/
def Obligations.OversizeLengthIsTruncated : Prop :=
  (∀ (e : Engine) (seed : List Byte), e.initialize seed = e.initialize (seed.take 1024) ∧
    e.reseed seed = e.reseed (seed.take 1024)) ∧
  ∀ (s : State) (len : SeedLen), 1024 ≤ len.toNat →
    exec (.init len) s = exec (.init 1024) s ∧ exec (.reseed len) s = exec (.reseed 1024) s ∧
    (∃ e : Engine, exec (.init len) s = .next (answered { s with engine := e } .ok 0)) ∧
    (s.engine.seeded = true →
      ∃ e : Engine, exec (.reseed len) s = .next (answered { s with engine := e } .ok 0))

/-- R156: bytes of `S` at or beyond `min(len, 1024)` are ignored by INIT and by RESEED. -/
def Obligations.BytesBeyondLengthAreIgnored : Prop :=
  ∀ (s t t' : State) (S' : Memory) (len : SeedLen) (i : Instr), i = .init len ∨ i = .reseed len →
    (∀ k < min len.toNat 1024, s.engine.S.read k = S'.read k) →
    exec i s = .next t → exec i { s with engine := { s.engine with S := S' } } = .next t' →
    t' = { t with engine := { t.engine with S := S' } }

/-! ## NEXT -/

/-- R190: NEXT is refused until the engine is seeded; with words left it counts `n` down and answers the
word of `R` at the new `n`; on an exhausted batch one whole UPDATE runs first. Nothing else changes. The
bound on `n` is the invariant of R30. -/
def Obligations.NextDrawsOneWord : Prop :=
  decode 0x00000001#32 = .ok .next ∧
  ∀ s : State,
    (s.engine.seeded = false → exec .next s = .next (answered s .errNotSeeded 0)) ∧
    (s.engine.seeded = true → 1 ≤ s.engine.n.toNat → s.engine.n.toNat ≤ 256 →
      exec .next s = .next (answered
        { s with engine := { s.engine with n := BitVec.ofNat 9 (s.engine.n.toNat - 1) } }
        .ok (Bank.read s.engine.R (BitVec.ofNat 8 (s.engine.n.toNat - 1))))) ∧
    (s.engine.seeded = true → s.engine.n = 0 →
      ∃ u : State, exec .update s = .next u ∧
        exec .next s = .next (answered { u with engine := { u.engine with n := 255 } }
          .ok (Bank.read u.engine.R 255)))

/-- R191, R192: after an UPDATE the first 256 draws hand out `R[255]` down to `R[0]`, run no UPDATE and
leave `n` at 0. -/
def Obligations.BatchIsDrawnDownward : Prop :=
  ∀ (s : State) (k : Nat) (rest : List Input), k ≤ 256 → s.engine.seeded = true →
    s.engine.n = 256 → s.inputs = List.replicate k (.command 0x00000001) ++ rest →
    run k s = .next { s with
      engine := { s.engine with n := BitVec.ofNat 9 (256 - k) }
      inputs := rest
      responses := s.responses ++ (List.range k).map fun d =>
        ⟨.ok, Bank.read s.engine.R (BitVec.ofNat 8 (255 - d))⟩ }

/-- R193: the closed form of the stream after an INIT: the `(d+1)`-th draw is word `255 - d mod 256` of
the batch reached by `d / 256` further UPDATEs; `c` and `n` after the last draw. -/
def Obligations.StreamAfterInitHasClosedForm : Prop :=
  ∀ (s0 s : State) (len : SeedLen) (k : Nat) (rest : List Input),
    s0.inputs = List.replicate (k + 1) (.command 0x00000001) ++ rest →
    exec (.init len) s0 = .next s →
    ∃ t : State, run (k + 1) s = .next t ∧ t.inputs = rest ∧
      t.responses = s.responses ++ (List.range (k + 1)).map (fun d =>
        ⟨.ok, Bank.read (Engine.update^[d / 256] s.engine).R (BitVec.ofNat 8 (255 - d % 256))⟩) ∧
      t.engine.n.toNat = 255 - k % 256 ∧ t.engine.c = 1 + BitVec.ofNat 64 (k / 256) ∧
      t.engine.S = s0.engine.S ∧ t.engine.seeded = true

/-! ## The whole machine -/

/-- R33: only INIT sets `seeded`, and only reset clears it. -/
def Obligations.OnlyInitSetsSeeded : Prop :=
  ∀ s t : State, step s = .next t →
    (s.engine.seeded = false → t.engine.seeded = true →
      ∃ w rest len, s.inputs = .command w :: rest ∧ decode w = .ok (.init len)) ∧
    (s.engine.seeded = true → t.engine.seeded = false →
      ∃ p rest, s.inputs = .reset p :: rest) ∧
    (∀ w rest len, s.inputs = .command w :: rest → decode w = .ok (.init len) →
      t.engine.seeded = true)

/-- R29: only SEEDW and reset write `S`. -/
def Obligations.OnlySeedwAndResetWriteSeedBuffer : Prop :=
  ∀ s t : State, step s = .next t → t.engine.S ≠ s.engine.S →
    (∃ w rest addr byte, s.inputs = .command w :: rest ∧ decode w = .ok (.seedw addr byte)) ∨
    ∃ p rest, s.inputs = .reset p :: rest

/-- R37: which commands write the pool and the accumulators: INIT, an accepted RESEED, and a NEXT that
finds the batch exhausted; every other step but reset leaves `a`, `b`, `c`, `M`, `R` and `X`. -/
def Obligations.OnlySeedingAndExhaustionChangeThePool : Prop :=
  ∀ s t : State, step s = .next t →
    (∀ p rest, s.inputs ≠ .reset p :: rest) →
    (∀ w rest len, s.inputs = .command w :: rest → decode w ≠ .ok (.init len)) →
    (∀ w rest len, s.inputs = .command w :: rest → decode w = .ok (.reseed len) →
      s.engine.seeded = false) →
    (∀ w rest, s.inputs = .command w :: rest → decode w = .ok .next →
      s.engine.seeded = false ∨ s.engine.n ≠ 0) →
    t.engine.a = s.engine.a ∧ t.engine.b = s.engine.b ∧ t.engine.c = s.engine.c ∧
    t.engine.M = s.engine.M ∧ t.engine.R = s.engine.R ∧ t.engine.X = s.engine.X

/-- R23, R181: `c` is set to 1 by INIT, advances by one (modulo 2^64) with an accepted RESEED and with
a NEXT that finds the batch exhausted, and is left by every other command. -/
def Obligations.CounterCountsUpdates : Prop :=
  ∀ (s t : State) (w : CmdWord) (rest : List Input), s.inputs = .command w :: rest →
    step s = .next t →
    t.engine.c =
      match decode w with
      | .ok (.init _) => 1
      | .ok (.reseed _) => if s.engine.seeded then s.engine.c + 1 else s.engine.c
      | .ok .next => if s.engine.seeded ∧ s.engine.n = 0 then s.engine.c + 1 else s.engine.c
      | _ => s.engine.c

/-- The invariant holds right after reset, whatever the unspecified state holds. -/
def Obligations.ResetMeetsInvariant : Prop :=
  State.reset.Inv ∧ ∀ u : ResetContents, (State.resetWith u).Inv

/-- Every step keeps the invariant: `S` in canonical form, `n` in 0..256 and `b == R[255]` while seeded,
and no data in a response that is not OK. -/
def Obligations.StepKeepsInvariant : Prop :=
  ∀ s t : State, s.Inv → step s = .next t → t.Inv

/-- R8, R36: a step cannot tell apart two machines that differ in the unspecified contents only. -/
def Obligations.StepKeepsAgreement : Prop :=
  ∀ s t s' : State, s.Agree t → step s = .next s' → ∃ t', step t = .next t' ∧ s'.Agree t'

/-- R36, R203: no response ever depends on what reset leaves unspecified. -/
def Obligations.ResetContentsAreUnobservable : Prop :=
  ∀ (u v : ResetContents) (ins : List Input) (k : Nat) (s t : State),
    run k { State.resetWith u with inputs := ins } = .next s →
    run k { State.resetWith v with inputs := ins } = .next t →
    s.responses = t.responses

/-! ## Pseudo-instructions -/

/-- R92, R141: INITB is `Initialize(seedBytes)` of the byte sequence given, from every state, whatever
`S` held; every command of it is answered OK. For a
sequence longer than 2^28 - 1 bytes the length operand is the model's reading of R82 (log entry 14). -/
def Obligations.InitbIsInitialize : Prop :=
  ∀ (s : State) (bytes : List Byte) (rest : List Input), s.engine.S.wf = true →
    s.inputs = issue (Pseudo.initb bytes).expand ++ rest →
    ∃ t : State, run (issue (Pseudo.initb bytes).expand).length s = .next t ∧
      { t.engine with S := s.engine.S } = { s.engine.initialize bytes with seeded := true } ∧
      t.inputs = rest ∧
      t.responses = s.responses ++
        List.replicate (issue (Pseudo.initb bytes).expand).length ⟨.ok, 0⟩

/-- R158, R92: INIT64 folds exactly its 64-bit value into word 0 of a cleared `R`. -/
def Obligations.IntegerSeedIsLittleEndian : Prop :=
  ∀ v : W64, (Pseudo.init64 v).expand = (Pseudo.initb (integerSeed v)).expand ∧
    ∀ i : PoolIndex, Bank.read (foldSeed (integerSeed v) Bank.zero) i = if i = 0 then v else 0
end

