-- ==== Sys2Proof/Laws/State.lean ====
section
/-! SUPPORT. One lemma per field per update, each true by definition, so that no later proof unfolds a
record update. Those about the engine are closed by `(rfl)`, so that simp rewrites with them and leaves no
computation of a loop to the kernel. -/

namespace Sys2Proof.Machine

@[simp] theorem State.withEngine_engine (s : State) (e : Engine) : (s.withEngine e).engine = e := rfl
@[simp] theorem State.withEngine_inputs (s : State) (e : Engine) : (s.withEngine e).inputs = s.inputs := rfl
@[simp] theorem State.withEngine_responses (s : State) (e : Engine) : (s.withEngine e).responses = s.responses := rfl
@[simp] theorem State.withEngine_resets (s : State) (e : Engine) : (s.withEngine e).resets = s.resets := rfl

@[simp] theorem State.withInputs_engine (s : State) (rest : List Input) : (s.withInputs rest).engine = s.engine := rfl
@[simp] theorem State.withInputs_inputs (s : State) (rest : List Input) : (s.withInputs rest).inputs = rest := rfl
@[simp] theorem State.withInputs_responses (s : State) (rest : List Input) : (s.withInputs rest).responses = s.responses := rfl
@[simp] theorem State.withInputs_resets (s : State) (rest : List Input) : (s.withInputs rest).resets = s.resets := rfl

@[simp] theorem State.respond_engine (s : State) (status : Status) (data : W64) : (s.respond status data).engine = s.engine := rfl
@[simp] theorem State.respond_inputs (s : State) (status : Status) (data : W64) : (s.respond status data).inputs = s.inputs := rfl
@[simp] theorem State.respond_responses (s : State) (status : Status) (data : W64) : (s.respond status data).responses = s.responses ++ [⟨status, data⟩] := rfl
@[simp] theorem State.respond_resets (s : State) (status : Status) (data : W64) : (s.respond status data).resets = s.resets := rfl

@[simp] theorem State.refuse_engine (s : State) (status : Status) : (s.refuse status).engine = s.engine := rfl
@[simp] theorem State.refuse_inputs (s : State) (status : Status) : (s.refuse status).inputs = s.inputs := rfl
@[simp] theorem State.refuse_responses (s : State) (status : Status) : (s.refuse status).responses = s.responses ++ [⟨status, 0⟩] := rfl
@[simp] theorem State.refuse_resets (s : State) (status : Status) : (s.refuse status).resets = s.resets := rfl

@[simp] theorem State.answerIllegal_engine (s : State) (r : Illegal) : (s.answerIllegal r).engine = s.engine := rfl
@[simp] theorem State.answerIllegal_inputs (s : State) (r : Illegal) : (s.answerIllegal r).inputs = s.inputs := rfl
@[simp] theorem State.answerIllegal_responses (s : State) (r : Illegal) : (s.answerIllegal r).responses = s.responses ++ [⟨.errIllegal, 0⟩] := rfl
@[simp] theorem State.answerIllegal_resets (s : State) (r : Illegal) : (s.answerIllegal r).resets = s.resets := rfl

@[simp] theorem State.takeReset_engine (s : State) (w : Option CmdWord) : (s.takeReset w).engine = Engine.reset (Config.resetContents s.resets) := rfl
@[simp] theorem State.takeReset_inputs (s : State) (w : Option CmdWord) : (s.takeReset w).inputs = s.inputs := rfl
@[simp] theorem State.takeReset_responses (s : State) (w : Option CmdWord) : (s.takeReset w).responses = s.responses := rfl
@[simp] theorem State.takeReset_resets (s : State) (w : Option CmdWord) : (s.takeReset w).resets = s.resets + 1 := rfl

@[simp] theorem Engine.reset_a (u : ResetContents) : (Engine.reset u).a = u.a := (rfl)
@[simp] theorem Engine.reset_b (u : ResetContents) : (Engine.reset u).b = u.b := (rfl)
@[simp] theorem Engine.reset_c (u : ResetContents) : (Engine.reset u).c = u.c := (rfl)
@[simp] theorem Engine.reset_n (u : ResetContents) : (Engine.reset u).n = u.n := (rfl)
@[simp] theorem Engine.reset_M (u : ResetContents) : (Engine.reset u).M = u.M := (rfl)
@[simp] theorem Engine.reset_R (u : ResetContents) : (Engine.reset u).R = u.R := (rfl)
@[simp] theorem Engine.reset_X (u : ResetContents) : (Engine.reset u).X = u.X := (rfl)
@[simp] theorem Engine.reset_S (u : ResetContents) : (Engine.reset u).S = [] := (rfl)
@[simp] theorem Engine.reset_seeded (u : ResetContents) : (Engine.reset u).seeded = false := (rfl)

@[simp] theorem Engine.setSeeded_a (e : Engine) : (e.setSeeded).a = e.a := (rfl)
@[simp] theorem Engine.setSeeded_b (e : Engine) : (e.setSeeded).b = e.b := (rfl)
@[simp] theorem Engine.setSeeded_c (e : Engine) : (e.setSeeded).c = e.c := (rfl)
@[simp] theorem Engine.setSeeded_n (e : Engine) : (e.setSeeded).n = e.n := (rfl)
@[simp] theorem Engine.setSeeded_M (e : Engine) : (e.setSeeded).M = e.M := (rfl)
@[simp] theorem Engine.setSeeded_R (e : Engine) : (e.setSeeded).R = e.R := (rfl)
@[simp] theorem Engine.setSeeded_X (e : Engine) : (e.setSeeded).X = e.X := (rfl)
@[simp] theorem Engine.setSeeded_S (e : Engine) : (e.setSeeded).S = e.S := (rfl)
@[simp] theorem Engine.setSeeded_seeded (e : Engine) : (e.setSeeded).seeded = true := (rfl)

@[simp] theorem Engine.mix_a (e : Engine) : (e.mix).a = e.a := (rfl)
@[simp] theorem Engine.mix_b (e : Engine) : (e.mix).b = e.b := (rfl)
@[simp] theorem Engine.mix_c (e : Engine) : (e.mix).c = e.c := (rfl)
@[simp] theorem Engine.mix_n (e : Engine) : (e.mix).n = e.n := (rfl)
@[simp] theorem Engine.mix_M (e : Engine) : (e.mix).M = e.M := (rfl)
@[simp] theorem Engine.mix_R (e : Engine) : (e.mix).R = e.R := (rfl)
@[simp] theorem Engine.mix_X (e : Engine) : (e.mix).X = scramble e.X := (rfl)
@[simp] theorem Engine.mix_S (e : Engine) : (e.mix).S = e.S := (rfl)
@[simp] theorem Engine.mix_seeded (e : Engine) : (e.mix).seeded = e.seeded := (rfl)

@[simp] theorem Engine.premix_a (e : Engine) : (e.premix).a = e.a := (rfl)
@[simp] theorem Engine.premix_b (e : Engine) : (e.premix).b = e.b := (rfl)
@[simp] theorem Engine.premix_c (e : Engine) : (e.premix).c = e.c := (rfl)
@[simp] theorem Engine.premix_n (e : Engine) : (e.premix).n = e.n := (rfl)
@[simp] theorem Engine.premix_M (e : Engine) : (e.premix).M = e.M := (rfl)
@[simp] theorem Engine.premix_R (e : Engine) : (e.premix).R = e.R := (rfl)
@[simp] theorem Engine.premix_X (e : Engine) : (e.premix).X = premixed := (rfl)
@[simp] theorem Engine.premix_S (e : Engine) : (e.premix).S = e.S := (rfl)
@[simp] theorem Engine.premix_seeded (e : Engine) : (e.premix).seeded = e.seeded := (rfl)

@[simp] theorem Engine.fold_a (e : Engine) (seed : List Byte) : (e.fold seed).a = e.a := (rfl)
@[simp] theorem Engine.fold_b (e : Engine) (seed : List Byte) : (e.fold seed).b = e.b := (rfl)
@[simp] theorem Engine.fold_c (e : Engine) (seed : List Byte) : (e.fold seed).c = e.c := (rfl)
@[simp] theorem Engine.fold_n (e : Engine) (seed : List Byte) : (e.fold seed).n = e.n := (rfl)
@[simp] theorem Engine.fold_M (e : Engine) (seed : List Byte) : (e.fold seed).M = e.M := (rfl)
@[simp] theorem Engine.fold_R (e : Engine) (seed : List Byte) : (e.fold seed).R = foldSeed seed e.R := (rfl)
@[simp] theorem Engine.fold_X (e : Engine) (seed : List Byte) : (e.fold seed).X = e.X := (rfl)
@[simp] theorem Engine.fold_S (e : Engine) (seed : List Byte) : (e.fold seed).S = e.S := (rfl)
@[simp] theorem Engine.fold_seeded (e : Engine) (seed : List Byte) : (e.fold seed).seeded = e.seeded := (rfl)

@[simp] theorem Engine.deriveBlock_a (src : Bank) (k : Nat) (e : Engine) : (e.deriveBlock src k).a = e.a := (rfl)
@[simp] theorem Engine.deriveBlock_b (src : Bank) (k : Nat) (e : Engine) : (e.deriveBlock src k).b = e.b := (rfl)
@[simp] theorem Engine.deriveBlock_c (src : Bank) (k : Nat) (e : Engine) : (e.deriveBlock src k).c = e.c := (rfl)
@[simp] theorem Engine.deriveBlock_n (src : Bank) (k : Nat) (e : Engine) : (e.deriveBlock src k).n = e.n := (rfl)
@[simp] theorem Engine.deriveBlock_M (src : Bank) (k : Nat) (e : Engine) : (e.deriveBlock src k).M = copyBlock (scramble (addBlock src k e.X)) k e.M := (rfl)
@[simp] theorem Engine.deriveBlock_R (src : Bank) (k : Nat) (e : Engine) : (e.deriveBlock src k).R = e.R := (rfl)
@[simp] theorem Engine.deriveBlock_X (src : Bank) (k : Nat) (e : Engine) : (e.deriveBlock src k).X = scramble (addBlock src k e.X) := (rfl)
@[simp] theorem Engine.deriveBlock_S (src : Bank) (k : Nat) (e : Engine) : (e.deriveBlock src k).S = e.S := (rfl)
@[simp] theorem Engine.deriveBlock_seeded (src : Bank) (k : Nat) (e : Engine) : (e.deriveBlock src k).seeded = e.seeded := (rfl)

@[simp] theorem Engine.clear_a (e : Engine) : (e.clear).a = 0 := (rfl)
@[simp] theorem Engine.clear_b (e : Engine) : (e.clear).b = 0 := (rfl)
@[simp] theorem Engine.clear_c (e : Engine) : (e.clear).c = 0 := (rfl)
@[simp] theorem Engine.clear_n (e : Engine) : (e.clear).n = e.n := (rfl)
@[simp] theorem Engine.clear_M (e : Engine) : (e.clear).M = e.M := (rfl)
@[simp] theorem Engine.clear_R (e : Engine) : (e.clear).R = Bank.zero := (rfl)
@[simp] theorem Engine.clear_X (e : Engine) : (e.clear).X = e.X := (rfl)
@[simp] theorem Engine.clear_S (e : Engine) : (e.clear).S = e.S := (rfl)
@[simp] theorem Engine.clear_seeded (e : Engine) : (e.clear).seeded = e.seeded := (rfl)

@[simp] theorem Engine.writeSeed_a (e : Engine) (addr : SeedAddr) (byte : Byte) : (e.writeSeed addr byte).a = e.a := (rfl)
@[simp] theorem Engine.writeSeed_b (e : Engine) (addr : SeedAddr) (byte : Byte) : (e.writeSeed addr byte).b = e.b := (rfl)
@[simp] theorem Engine.writeSeed_c (e : Engine) (addr : SeedAddr) (byte : Byte) : (e.writeSeed addr byte).c = e.c := (rfl)
@[simp] theorem Engine.writeSeed_n (e : Engine) (addr : SeedAddr) (byte : Byte) : (e.writeSeed addr byte).n = e.n := (rfl)
@[simp] theorem Engine.writeSeed_M (e : Engine) (addr : SeedAddr) (byte : Byte) : (e.writeSeed addr byte).M = e.M := (rfl)
@[simp] theorem Engine.writeSeed_R (e : Engine) (addr : SeedAddr) (byte : Byte) : (e.writeSeed addr byte).R = e.R := (rfl)
@[simp] theorem Engine.writeSeed_X (e : Engine) (addr : SeedAddr) (byte : Byte) : (e.writeSeed addr byte).X = e.X := (rfl)
@[simp] theorem Engine.writeSeed_S (e : Engine) (addr : SeedAddr) (byte : Byte) : (e.writeSeed addr byte).S = Memory.write e.S addr.toNat byte := (rfl)
@[simp] theorem Engine.writeSeed_seeded (e : Engine) (addr : SeedAddr) (byte : Byte) : (e.writeSeed addr byte).seeded = e.seeded := (rfl)

@[simp] theorem Engine.consume_a (e : Engine) : (e.consume).a = e.a := (rfl)
@[simp] theorem Engine.consume_b (e : Engine) : (e.consume).b = e.b := (rfl)
@[simp] theorem Engine.consume_c (e : Engine) : (e.consume).c = e.c := (rfl)
@[simp] theorem Engine.consume_n (e : Engine) : (e.consume).n = e.n - 1 := (rfl)
@[simp] theorem Engine.consume_M (e : Engine) : (e.consume).M = e.M := (rfl)
@[simp] theorem Engine.consume_R (e : Engine) : (e.consume).R = e.R := (rfl)
@[simp] theorem Engine.consume_X (e : Engine) : (e.consume).X = e.X := (rfl)
@[simp] theorem Engine.consume_S (e : Engine) : (e.consume).S = e.S := (rfl)
@[simp] theorem Engine.consume_seeded (e : Engine) : (e.consume).seeded = e.seeded := (rfl)

@[simp] theorem Engine.update_a (e : Engine) : (e.update).a = (updateSteps e).a := (rfl)
@[simp] theorem Engine.update_b (e : Engine) : (e.update).b = (updateSteps e).b := (rfl)
@[simp] theorem Engine.update_c (e : Engine) : (e.update).c = e.c + 1 := (rfl)
@[simp] theorem Engine.update_n (e : Engine) : (e.update).n = 256#9 := (rfl)
@[simp] theorem Engine.update_M (e : Engine) : (e.update).M = (updateSteps e).M := (rfl)
@[simp] theorem Engine.update_R (e : Engine) : (e.update).R = (updateSteps e).R := (rfl)
@[simp] theorem Engine.update_X (e : Engine) : (e.update).X = e.X := (rfl)
@[simp] theorem Engine.update_S (e : Engine) : (e.update).S = e.S := (rfl)
@[simp] theorem Engine.update_seeded (e : Engine) : (e.update).seeded = e.seeded := (rfl)

end Sys2Proof.Machine
end

