-- ==== Sys2Proof/Laws/Memory.lean ====
section
/-! SUPPORT. The laws of the three memories and the scratch buffer: a read after a write, the canonical
form of `S`, and when two memories are equal. -/

namespace Sys2Proof

theorem Bank.read_write_same (v : Bank) (i : PoolIndex) (x : W64) : (v.write i x).read i = x := by
  simp [Bank.read, Bank.write]

theorem Bank.read_write_other (v : Bank) (i j : PoolIndex) (x : W64) (h : j ≠ i) :
    (v.write i x).read j = v.read j := by
  have hne : i.toNat ≠ j.toNat := fun hc => h (BitVec.eq_of_toNat_eq hc.symm)
  simp [Bank.read, Bank.write, hne]

theorem Bank.read_write (v : Bank) (i j : PoolIndex) (x : W64) :
    (v.write i x).read j = if j = i then x else v.read j := by
  split
  · next h => rw [h, Bank.read_write_same]
  · next h => exact Bank.read_write_other v i j x h

theorem Bank.ext_read {v w : Bank} (h : ∀ i : PoolIndex, v.read i = w.read i) : v = w := by
  apply Vector.ext
  intro i hi
  have := h (BitVec.ofNat 8 i)
  simpa [Bank.read, Nat.mod_eq_of_lt hi] using this

@[simp] theorem Bank.read_zero (i : PoolIndex) : Bank.zero.read i = 0 := by
  simp [Bank.read, Bank.zero]

theorem Scratch.read_write (v : Scratch) (i j : Fin 8) (x : W64) :
    (v.write i x).read j = if j = i then x else v.read j := by
  simp only [Scratch.read, Scratch.write, Vector.getElem_set, Fin.ext_iff, eq_comm]

theorem Scratch.ext_read {v w : Scratch} (h : ∀ j : Fin 8, v.read j = w.read j) : v = w := by
  apply Vector.ext
  intro i hi
  exact h ⟨i, hi⟩

namespace Machine

theorem Memory.read_cons (a k : Nat) (v : Byte) (m : Memory) (hm : m.read k = 0 ∨ a ≠ k) :
    (Memory.cons k v m).read a = if a = k then v else m.read a := by
  unfold Memory.cons
  split
  · next h =>
    split
    · next h' => subst h'; simpa [h, Memory.unlisted] using hm
    · rfl
  · simp [Memory.read]

/-- Every cell of a well-formed tail lies at or above `lo`, so a lower address is unlisted. -/
theorem Memory.read_below {lo a : Nat} {m : Memory} (h : m.wfFrom lo = true) (ha : a < lo) :
    m.read a = 0 := by
  induction m generalizing lo with
  | nil => rfl
  | cons c rest ih =>
    obtain ⟨k, v⟩ := c
    simp only [Memory.wfFrom, Bool.and_eq_true, decide_eq_true_eq] at h
    have hk : a ≠ k := by omega
    simp only [Memory.read, hk, if_false]
    exact ih h.2 (by omega)

theorem Memory.wfFrom_mono {lo lo' : Nat} {m : Memory} (h : m.wfFrom lo = true) (hle : lo' ≤ lo) :
    m.wfFrom lo' = true := by
  cases m with
  | nil => rfl
  | cons c rest =>
    simp only [Memory.wfFrom, Bool.and_eq_true, decide_eq_true_eq] at h ⊢
    exact ⟨⟨⟨by omega, h.1.1.2⟩, h.1.2⟩, h.2⟩

theorem Memory.wfFrom_cons {lo a : Nat} {v : Byte} {m : Memory} (hlo : lo ≤ a)
    (ha : a < Memory.size) (h : m.wfFrom (a + 1) = true) :
    (Memory.cons a v m).wfFrom lo = true := by
  unfold Memory.cons
  split
  · exact Memory.wfFrom_mono h (by omega)
  · next hv => simp [Memory.wfFrom, hlo, ha, hv, h]

theorem Memory.wfFrom_write {lo a : Nat} {v : Byte} {m : Memory} (h : m.wfFrom lo = true)
    (hlo : lo ≤ a) (ha : a < Memory.size) : (m.write a v).wfFrom lo = true := by
  induction m generalizing lo with
  | nil => exact Memory.wfFrom_cons hlo ha rfl
  | cons c rest ih =>
    obtain ⟨k, w⟩ := c
    have hc := h
    simp only [Memory.wfFrom, Bool.and_eq_true, decide_eq_true_eq] at hc
    obtain ⟨⟨⟨h1, h2⟩, h3⟩, h4⟩ := hc
    unfold Memory.write
    split
    · next hlt =>
      refine Memory.wfFrom_cons hlo ha ?_
      simp only [Memory.wfFrom, Bool.and_eq_true, decide_eq_true_eq]
      exact ⟨⟨⟨by omega, h2⟩, h3⟩, h4⟩
    · split
      · next heq => subst heq; exact Memory.wfFrom_cons hlo ha h4
      · simp only [Memory.wfFrom, Bool.and_eq_true, decide_eq_true_eq]
        exact ⟨⟨⟨h1, h2⟩, h3⟩, ih h4 (by omega)⟩

/-- Writing a byte inside `S` keeps the canonical form. -/
theorem Memory.wf_write {m : Memory} {a : Nat} (v : Byte) (h : m.wf = true)
    (ha : a < Memory.size) : (m.write a v).wf = true :=
  Memory.wfFrom_write h (Nat.zero_le a) ha

theorem Memory.read_write_from {lo a k : Nat} {v : Byte} {m : Memory} (h : m.wfFrom lo = true) :
    (m.write k v).read a = if a = k then v else m.read a := by
  induction m generalizing lo with
  | nil => exact Memory.read_cons a k v [] (.inl rfl)
  | cons c rest ih =>
    obtain ⟨k', w⟩ := c
    have hc := h
    simp only [Memory.wfFrom, Bool.and_eq_true, decide_eq_true_eq] at hc
    unfold Memory.write
    split
    · next hlt =>
      refine Memory.read_cons a k v _ (.inl ?_)
      have hk : k ≠ k' := by omega
      simp only [Memory.read, hk, if_false]
      exact Memory.read_below hc.2 (by omega)
    · split
      · next heq =>
        subst heq
        rw [Memory.read_cons a k v rest (.inl (Memory.read_below hc.2 (by omega)))]
        simp only [Memory.read]
        split <;> rfl
      · next hne =>
        simp only [Memory.read, ih hc.2]
        split
        · next ha => subst ha; simp [Ne.symm hne]
        · rfl

/-- A read of `S` after a write: the byte written at its address, every other byte as before. -/
theorem Memory.read_write {m : Memory} (h : m.wf = true) (a k : Nat) (v : Byte) :
    (m.write k v).read a = if a = k then v else m.read a :=
  Memory.read_write_from h

theorem Memory.ext_from {lo : Nat} {m m' : Memory} (h : m.wfFrom lo = true)
    (h' : m'.wfFrom lo = true) (hr : ∀ a, m.read a = m'.read a) : m = m' := by
  induction m generalizing lo m' with
  | nil =>
    cases m' with
    | nil => rfl
    | cons c rest =>
      obtain ⟨k, v⟩ := c
      simp only [Memory.wfFrom, Bool.and_eq_true, decide_eq_true_eq] at h'
      have := hr k
      simp only [Memory.read, if_true] at this
      exact absurd this.symm h'.1.2
  | cons c rest ih =>
    obtain ⟨k, v⟩ := c
    have hc := h
    simp only [Memory.wfFrom, Bool.and_eq_true, decide_eq_true_eq] at hc
    have hk := hr k
    simp only [Memory.read, if_true] at hk
    cases m' with
    | nil => exact absurd hk hc.1.2
    | cons c' rest' =>
      obtain ⟨k', v'⟩ := c'
      have hc' := h'
      simp only [Memory.wfFrom, Bool.and_eq_true, decide_eq_true_eq] at hc'
      have hkk : k = k' := by
        rcases Nat.lt_trichotomy k k' with hlt | heq | hgt
        · exfalso
          have hne : k ≠ k' := by omega
          simp only [Memory.read, hne, if_false] at hk
          rw [Memory.read_below hc'.2 (by omega)] at hk
          exact hc.1.2 hk
        · exact heq
        · exfalso
          have hk' := hr k'
          have hne : k' ≠ k := by omega
          simp only [Memory.read, if_true, hne, if_false] at hk'
          rw [Memory.read_below hc.2 (by omega)] at hk'
          exact hc'.1.2 hk'.symm
      subst hkk
      simp only [Memory.read, if_true] at hk
      subst hk
      refine congrArg _ (ih hc.2 hc'.2 fun a => ?_)
      by_cases ha : a = k
      · subst ha
        rw [Memory.read_below hc.2 (by omega), Memory.read_below hc'.2 (by omega)]
      · simpa [Memory.read, ha] using hr a

/-- Two seed buffers in canonical form that read the same everywhere are equal as data. -/
theorem Memory.ext_read {m m' : Memory} (h : m.wf = true) (h' : m'.wf = true)
    (hr : ∀ a, m.read a = m'.read a) : m = m' :=
  Memory.ext_from h h' hr

end Machine

end Sys2Proof
end

