-- ==== Sys2Proof/Laws/Ops.lean ====
section
/-! SUPPORT. One lemma per shared operation that says what it does: the loop, the blocks of a derivation
pass, the two passes, UPDATE, Reseed, Initialize, and what one step can do. Later proofs cite these and do
not unfold the operations. -/

namespace Sys2Proof

theorem forUpTo_zero {α : Type} (step : Nat → α → α) (x : α) : forUpTo step 0 x = x := by
  with_unfolding_all rfl

theorem forUpTo_succ {α : Type} (step : Nat → α → α) (k : Nat) (x : α) :
    forUpTo step (k + 1) x = step k (forUpTo step k x) := by
  with_unfolding_all rfl

/-- What holds of the start and is kept by every pass holds at the end; the property may speak of how
many passes have run. -/
theorem forUpTo_induct {α : Type} {step : Nat → α → α} {P : Nat → α → Prop} {x : α} {k : Nat}
    (h0 : P 0 x) (hs : ∀ i y, i < k → P i y → P (i + 1) (step i y)) : P k (forUpTo step k x) := by
  induction k with
  | zero => rw [forUpTo_zero]; exact h0
  | succ k ih =>
    rw [forUpTo_succ]
    exact hs k _ (Nat.lt_succ_self k) (ih fun i y hi => hs i y (by omega))

/-- Two loops that do the same at every pass give the same. -/
theorem forUpTo_congr {α : Type} {f g : Nat → α → α} {k : Nat} (x : α)
    (h : ∀ i < k, ∀ y, f i y = g i y) : forUpTo f k x = forUpTo g k x := by
  induction k with
  | zero => rw [forUpTo_zero, forUpTo_zero]
  | succ k ih =>
    rw [forUpTo_succ, forUpTo_succ, ih fun i hi => h i (by omega), h k (Nat.lt_succ_self k)]

namespace Machine

theorem blockIndex_toNat {k j : Nat} (hk : k < 32) (hj : j < 8) :
    (blockIndex k j).toNat = 8 * k + j := by
  simp only [blockIndex, BitVec.toNat_ofNat]
  omega

/-- The block of eight that a pool index lies in, and its lane there. -/
theorem eq_blockIndex_iff (i : PoolIndex) {k j : Nat} (hk : k < 32) (hj : j < 8) :
    i = blockIndex k j ↔ i.toNat / 8 = k ∧ i.toNat % 8 = j := by
  rw [← BitVec.toNat_inj, blockIndex_toNat hk hj]
  omega

/-- Adding a block adds lane by lane (R145). -/
theorem addBlock_read (src : Bank) (k : Nat) (x : Scratch) (j : Fin 8) :
    Scratch.read (addBlock src k x) j = Scratch.read x j + Bank.read src (blockIndex k j) := by
  have h : ∀ n ≤ 8, ∀ j : Fin 8,
      Scratch.read (forUpTo (fun j x => Scratch.write x (Fin.ofNat 8 j)
        (Scratch.read x (Fin.ofNat 8 j) + Bank.read src (blockIndex k j))) n x) j =
      if j.val < n then Scratch.read x j + Bank.read src (blockIndex k j) else Scratch.read x j := by
    intro n
    induction n with
    | zero => intro _ j; simp [forUpTo_zero]
    | succ n ih =>
      intro hn j
      have hval : (Fin.ofNat 8 n).val = n := Nat.mod_eq_of_lt (by omega)
      rw [forUpTo_succ, Scratch.read_write, ih (by omega), ih (by omega), hval]
      by_cases hj : j = Fin.ofNat 8 n
      · rw [if_pos hj, hj, hval, if_neg (Nat.lt_irrefl n), if_pos (Nat.lt_succ_self n)]
      · have hne : j.val ≠ n := fun hc => hj (Fin.ext (by rw [hval, hc]))
        simp only [hj, if_false]
        by_cases hlt : j.val < n
        · rw [if_pos hlt, if_pos (by omega)]
        · rw [if_neg hlt, if_neg (by omega)]
  simpa [addBlock, blockWords, j.isLt] using h 8 (Nat.le_refl 8) j

/-- Copying the scratch buffer into block `k` writes that block and leaves every other word (R145). -/
theorem copyBlock_read (x : Scratch) {k : Nat} (hk : k < 32) (M : Bank) (i : PoolIndex) :
    Bank.read (copyBlock x k M) i =
      if i.toNat / 8 = k then Scratch.read x ⟨i.toNat % 8, by omega⟩ else Bank.read M i := by
  have h : ∀ n ≤ 8, ∀ i : PoolIndex,
      Bank.read (forUpTo (fun j M => Bank.write M (blockIndex k j)
        (Scratch.read x (Fin.ofNat 8 j))) n M) i =
      if i.toNat / 8 = k ∧ i.toNat % 8 < n then Scratch.read x ⟨i.toNat % 8, by omega⟩
      else Bank.read M i := by
    intro n
    induction n with
    | zero => intro _ i; simp [forUpTo_zero]
    | succ n ih =>
      intro hn i
      rw [forUpTo_succ, Bank.read_write, ih (by omega)]
      by_cases hi : i = blockIndex k n
      · have hc := (eq_blockIndex_iff i hk (by omega)).1 hi
        rw [if_pos hi, if_pos ⟨hc.1, by omega⟩]
        congr 1
        exact Fin.ext (by simp only [Fin.ofNat]; omega)
      · have hc := fun h => hi ((eq_blockIndex_iff i hk (j := n) (by omega)).2 h)
        rw [if_neg hi]
        by_cases hb : i.toNat / 8 = k ∧ i.toNat % 8 < n
        · rw [if_pos hb, if_pos ⟨hb.1, by omega⟩]
        · rw [if_neg hb, if_neg]
          rintro ⟨h1, h2⟩
          exact hc ⟨h1, by omega⟩
  have := h 8 (Nat.le_refl 8) i
  rw [copyBlock, blockWords, this]
  have : i.toNat % 8 < 8 := Nat.mod_lt _ (by omega)
  simp [this]

/-- The same, read by block and lane: block `k` is the scratch buffer, every other block as before. -/
theorem copyBlock_read_block (x : Scratch) {k l : Nat} (hk : k < 32) (hl : l < 32) (M : Bank)
    (j : Fin 8) : Bank.read (copyBlock x k M) (blockIndex l j) =
      if l = k then Scratch.read x j else Bank.read M (blockIndex l j) := by
  obtain ⟨h1, h2⟩ := (eq_blockIndex_iff (blockIndex l j) hl j.isLt).1 rfl
  rw [copyBlock_read x hk, h1]
  congr 2
  exact Fin.ext h2

/-- A derivation pass, and each block of it, changes `M` and `X` only (R37). -/
structure Engine.SameButPool (e f : Engine) : Prop where
  a : f.a = e.a
  b : f.b = e.b
  c : f.c = e.c
  n : f.n = e.n
  R : f.R = e.R
  S : f.S = e.S
  seeded : f.seeded = e.seeded

theorem Engine.derive1_frame (e : Engine) : e.SameButPool e.derive1 := by
  unfold Engine.derive1
  refine forUpTo_induct (P := fun _ f => e.SameButPool f) ⟨rfl, rfl, rfl, rfl, rfl, rfl, rfl⟩ ?_
  intro i y _ h
  exact ⟨h.a, h.b, h.c, h.n, h.R, h.S, h.seeded⟩

theorem Engine.derive2_frame (e : Engine) : e.SameButPool e.derive2 := by
  unfold Engine.derive2
  refine forUpTo_induct (P := fun _ f => e.SameButPool f) ⟨rfl, rfl, rfl, rfl, rfl, rfl, rfl⟩ ?_
  intro i y _ h
  exact ⟨h.a, h.b, h.c, h.n, h.R, h.S, h.seeded⟩

/-- DERIVE1 never reads the old pool: on engines that agree on `R` and `X` it leaves the same `M` and
`X` (R145, R151). -/
theorem Engine.derive1_pool {e f : Engine} (hR : e.R = f.R) (hX : e.X = f.X) :
    e.derive1.M = f.derive1.M ∧ e.derive1.X = f.derive1.X := by
  have h : ∀ n ≤ 32,
      let e' := forUpTo (fun k (e : Engine) => e.deriveBlock e.R k) n e
      let f' := forUpTo (fun k (e : Engine) => e.deriveBlock e.R k) n f
      e'.R = f'.R ∧ e'.X = f'.X ∧
        ∀ i : PoolIndex, i.toNat / 8 < n → Bank.read e'.M i = Bank.read f'.M i := by
    intro n
    induction n with
    | zero => intro _; simp [forUpTo_zero, hR, hX]
    | succ n ih =>
      intro hn
      obtain ⟨h1, h2, h3⟩ := ih (by omega)
      simp only [forUpTo_succ, Engine.deriveBlock_R, Engine.deriveBlock_X, Engine.deriveBlock_M]
      refine ⟨h1, by rw [h1, h2], fun i hi => ?_⟩
      rw [copyBlock_read _ (by omega), copyBlock_read _ (by omega), h1, h2]
      split
      · rfl
      · exact h3 i (by omega)
  obtain ⟨_, h2, h3⟩ := h 32 (Nat.le_refl 32)
  exact ⟨Bank.ext_read fun i => h3 i (by have := i.isLt; omega), h2⟩

/-- DERIVE2 is a function of `M` and `X` (R146). -/
theorem Engine.derive2_pool {e f : Engine} (hM : e.M = f.M) (hX : e.X = f.X) :
    e.derive2.M = f.derive2.M ∧ e.derive2.X = f.derive2.X := by
  have h : ∀ n, let e' := forUpTo (fun k (e : Engine) => e.deriveBlock e.M k) n e
      let f' := forUpTo (fun k (e : Engine) => e.deriveBlock e.M k) n f
      e'.M = f'.M ∧ e'.X = f'.X := by
    intro n
    induction n with
    | zero => simp [forUpTo_zero, hM, hX]
    | succ n ih =>
      obtain ⟨h1, h2⟩ := ih
      simp only [forUpTo_succ, Engine.deriveBlock_X, Engine.deriveBlock_M]
      exact ⟨by rw [h1, h2], by rw [h1, h2]⟩
  exact h 32

/-- `lowIndex` as a number (R119). -/
theorem lowIndex_toNat (x : W64) : (lowIndex x).toNat = ((x >>> 3) &&& 255#64).toNat := by
  simp only [lowIndex, BitVec.extractLsb'_toNat, BitVec.toNat_and, BitVec.toNat_ushiftRight]
  exact (Nat.and_two_pow_sub_one_eq_mod _ 8).symm

/-- `highIndex` as a number (R120). -/
theorem highIndex_toNat (y : W64) : (highIndex y).toNat = ((y >>> 11) &&& 255#64).toNat := by
  simp only [highIndex, BitVec.extractLsb'_toNat, BitVec.toNat_and, BitVec.toNat_ushiftRight]
  exact (Nat.and_two_pow_sub_one_eq_mod _ 8).symm

/-- The partner of an index given as a number (R172). -/
theorem partner_ofNat {i : Nat} (hi : i < 256) :
    partner (BitVec.ofNat 8 i) = BitVec.ofNat 8 (if i < 128 then i + 128 else i - 128) := by
  apply BitVec.eq_of_toNat_eq
  unfold partner
  split <;> split <;> bv_omega

/-- The word steps of UPDATE are a function of `a`, `b + c`, and `M`: the old `R` is overwritten word by
word and not read (R170, R180). -/
theorem updateSteps_eq {e f : Engine} (ha : e.a = f.a) (hb : e.b = f.b) (hc : e.c = f.c)
    (hM : e.M = f.M) : updateSteps e = updateSteps f := by
  have h : ∀ n ≤ 256,
      let v := forUpTo updateStep n (updateStart e)
      let w := forUpTo updateStep n (updateStart f)
      v.a = w.a ∧ v.b = w.b ∧ v.M = w.M ∧
        ∀ i : PoolIndex, i.toNat < n → Bank.read v.R i = Bank.read w.R i := by
    intro n
    induction n with
    | zero => intro _; simp [forUpTo_zero, updateStart, ha, hb, hc, hM]
    | succ n ih =>
      intro hn
      obtain ⟨h1, h2, h3, h4⟩ := ih (by omega)
      simp only [forUpTo_succ, updateStep, h1, h2, h3, true_and]
      intro i hi
      rw [Bank.read_write _ _ i, Bank.read_write _ _ i]
      by_cases hne : i = BitVec.ofNat 8 n
      · rw [if_pos hne, if_pos hne]
      · rw [if_neg hne, if_neg hne]
        refine h4 i ?_
        have : i.toNat ≠ n := fun hc => hne (BitVec.eq_of_toNat_eq (by
          rw [BitVec.toNat_ofNat, hc, Nat.mod_eq_of_lt (by omega)]))
        omega
  obtain ⟨h1, h2, h3, h4⟩ := h 256 (Nat.le_refl 256)
  have h5 := Bank.ext_read fun i => h4 i i.isLt
  unfold updateSteps poolWords
  generalize forUpTo updateStep 256 (updateStart e) = v at *
  generalize forUpTo updateStep 256 (updateStart f) = w at *
  cases v; cases w
  simp_all

/-- After the word steps the last word produced is `b'` (R174). -/
theorem updateSteps_last (e : Engine) :
    (updateSteps e).b = Bank.read (updateSteps e).R 255#8 := by
  have h : updateSteps e = updateStep 255 (forUpTo updateStep 255 (updateStart e)) := by
    unfold updateSteps poolWords
    exact forUpTo_succ updateStep 255 _
  rw [h]
  simp only [updateStep]
  exact (Bank.read_write_same _ _ _).symm

/-- What `Reseed(seed)` leaves of the rest: `c` advances, `n` is 256, `S` and `seeded` stay, and `b` is the
last result word (R147). -/
theorem Engine.reseed_rest (e : Engine) (seed : List Byte) :
    (e.reseed seed).c = e.c + 1 ∧ (e.reseed seed).n = 256#9 ∧ (e.reseed seed).S = e.S ∧
    (e.reseed seed).seeded = e.seeded ∧ (e.reseed seed).b = Bank.read (e.reseed seed).R 255#8 := by
  have h1 := (e.fold seed).premix.derive1_frame
  have h2 := (e.fold seed).premix.derive1.derive2_frame
  refine ⟨?_, ?_, ?_, ?_, ?_⟩
  · simp only [Engine.reseed, Engine.update_c, h2.c, h1.c, Engine.premix_c, Engine.fold_c]
  · simp only [Engine.reseed, Engine.update_n]
  · simp only [Engine.reseed, Engine.update_S, h2.S, h1.S, Engine.premix_S, Engine.fold_S]
  · simp only [Engine.reseed, Engine.update_seeded, h2.seeded, h1.seeded, Engine.premix_seeded,
      Engine.fold_seeded]
  · simp only [Engine.reseed, Engine.update_b, Engine.update_R]
    exact updateSteps_last _

/-- `Reseed(seed)` is a function of `a`, `b`, `c`, `R` and the seed (R151). -/
theorem Engine.reseed_eq {e f : Engine} (seed : List Byte) (ha : e.a = f.a) (hb : e.b = f.b)
    (hc : e.c = f.c) (hR : e.R = f.R) :
    (e.reseed seed).a = (f.reseed seed).a ∧ (e.reseed seed).b = (f.reseed seed).b ∧
    (e.reseed seed).c = (f.reseed seed).c ∧ (e.reseed seed).n = (f.reseed seed).n ∧
    (e.reseed seed).M = (f.reseed seed).M ∧ (e.reseed seed).R = (f.reseed seed).R ∧
    (e.reseed seed).X = (f.reseed seed).X := by
  have e1 := (e.fold seed).premix.derive1_frame
  have e2 := (e.fold seed).premix.derive1.derive2_frame
  have f1 := (f.fold seed).premix.derive1_frame
  have f2 := (f.fold seed).premix.derive1.derive2_frame
  have p1 := Engine.derive1_pool (e := (e.fold seed).premix) (f := (f.fold seed).premix)
    (by simp only [Engine.premix_R, Engine.fold_R, hR]) rfl
  have p2 := Engine.derive2_pool p1.1 p1.2
  have u := updateSteps_eq (e := (e.fold seed).premix.derive1.derive2)
    (f := (f.fold seed).premix.derive1.derive2)
    (by simp only [e2.a, e1.a, f2.a, f1.a, Engine.premix_a, Engine.fold_a, ha])
    (by simp only [e2.b, e1.b, f2.b, f1.b, Engine.premix_b, Engine.fold_b, hb])
    (by simp only [e2.c, e1.c, f2.c, f1.c, Engine.premix_c, Engine.fold_c, hc]) p2.1
  refine ⟨?_, ?_, ?_, ?_, ?_, ?_, ?_⟩
  · simp only [Engine.reseed, Engine.update_a, u]
  · simp only [Engine.reseed, Engine.update_b, u]
  · simp only [(e.reseed_rest seed).1, (f.reseed_rest seed).1, hc]
  · simp only [(e.reseed_rest seed).2.1, (f.reseed_rest seed).2.1]
  · simp only [Engine.reseed, Engine.update_M, u]
  · simp only [Engine.reseed, Engine.update_R, u]
  · simp only [Engine.reseed, Engine.update_X, p2.2]

/-- What `Initialize(seed)` leaves of the rest (R148). -/
theorem Engine.initialize_rest (e : Engine) (seed : List Byte) :
    (e.initialize seed).c = 1 ∧ (e.initialize seed).n = 256#9 ∧ (e.initialize seed).S = e.S ∧
    (e.initialize seed).seeded = e.seeded ∧
    (e.initialize seed).b = Bank.read (e.initialize seed).R 255#8 := by
  have h := e.clear.reseed_rest seed
  rw [Engine.clear_c, Engine.clear_S, Engine.clear_seeded, show (0 : W64) + 1 = 1 by decide] at h
  rw [Engine.initialize]
  exact h

/-- `Initialize(seed)` is a function of the seed alone, but for `S` and `seeded`, which it leaves
(R38, R151). -/
theorem Engine.initialize_eq (e f : Engine) (seed : List Byte) :
    (e.initialize seed).a = (f.initialize seed).a ∧ (e.initialize seed).b = (f.initialize seed).b ∧
    (e.initialize seed).c = (f.initialize seed).c ∧ (e.initialize seed).n = (f.initialize seed).n ∧
    (e.initialize seed).M = (f.initialize seed).M ∧ (e.initialize seed).R = (f.initialize seed).R ∧
    (e.initialize seed).X = (f.initialize seed).X := by
  rw [Engine.initialize, Engine.initialize]
  exact Engine.reseed_eq seed (by rw [Engine.clear_a, Engine.clear_a])
    (by rw [Engine.clear_b, Engine.clear_b]) (by rw [Engine.clear_c, Engine.clear_c])
    (by rw [Engine.clear_R, Engine.clear_R])

/-- Two engines that agree on every field are equal. -/
theorem Engine.ext_fields {e f : Engine} (ha : e.a = f.a) (hb : e.b = f.b) (hc : e.c = f.c)
    (hn : e.n = f.n) (hM : e.M = f.M) (hR : e.R = f.R) (hX : e.X = f.X) (hS : e.S = f.S)
    (hs : e.seeded = f.seeded) : e = f := by
  cases e
  cases f
  simp only at ha hb hc hn hM hR hX hS hs
  subst ha hb hc hn hM hR hX hS hs
  rfl

/-- What one step can do: idle, take a reset, answer an illegal word, or run the decoded command. -/
theorem step_cases {s t : State} (h : step s = .next t) :
    (s.inputs = [] ∧ t = s) ∨
    (∃ p rest, s.inputs = .reset p :: rest ∧ t = (s.withInputs rest).takeReset p) ∨
    (∃ w rest r, s.inputs = .command w :: rest ∧ decode w = .error r ∧
      t = (s.withInputs rest).answerIllegal r) ∨
    (∃ w rest i, s.inputs = .command w :: rest ∧ decode w = .ok i ∧
      exec i (s.withInputs rest) = .next t) := by
  unfold step at h
  split at h
  · next hi => exact .inl ⟨hi, by cases h; rfl⟩
  · next p rest hi => exact .inr (.inl ⟨p, rest, hi, by cases h; rfl⟩)
  · next w rest hi =>
    split at h
    · next i hd => exact .inr (.inr (.inr ⟨w, rest, i, hi, hd, h⟩))
    · next r hd => exact .inr (.inr (.inl ⟨w, rest, r, hi, hd, by cases h; rfl⟩))

/-- What the decoder can answer: a host command, never an internal operation (R86, R89). -/
theorem decode_cases {w : CmdWord} {i : Instr} (h : decode w = .ok i) :
    i = .next ∨ i = .init (lenField w) ∨ i = .reseed (lenField w) ∨
      i = .seedw (addrField w) (byteField w) := by
  unfold decode at h
  split at h
  · split at h
    · cases h; exact .inl rfl
    · cases h
  · split at h
    · cases h; exact .inr (.inl rfl)
    · split at h
      · cases h; exact .inr (.inr (.inl rfl))
      · split at h
        · split at h
          · cases h; exact .inr (.inr (.inr rfl))
          · cases h
        · cases h

/-- On a seeded engine the command runs (R203). -/
theorem State.ifSeeded_seeded {s : State} (run : State → State) (h : s.engine.seeded = true) :
    s.ifSeeded run = run s := by
  unfold State.ifSeeded
  rw [h]

/-- On an engine that is not seeded the command is refused (R203). -/
theorem State.ifSeeded_unseeded {s : State} (run : State → State) (h : s.engine.seeded = false) :
    s.ifSeeded run = s.refuse .errNotSeeded := by
  unfold State.ifSeeded
  rw [h]

/-- An exhausted batch is refilled by one UPDATE (R190). -/
theorem Engine.refill_exhausted {e : Engine} (h : e.n = 0#9) : e.refill = e.update := by
  unfold Engine.refill Engine.exhausted
  rw [h]
  rfl

/-- A batch with words left is drawn from as it is (R190). -/
theorem Engine.refill_words_left {e : Engine} (h : e.n ≠ 0#9) : e.refill = e := by
  unfold Engine.refill Engine.exhausted
  rw [beq_eq_false_iff_ne.2 h]

/-- What a step on a command word can do: answer an illegal word, or run NEXT, INIT, RESEED or SEEDW. -/
theorem command_cases {s t : State} {w : CmdWord} {rest : List Input}
    (hi : s.inputs = .command w :: rest) (h : step s = .next t) :
    (∃ r, decode w = .error r ∧ t = (s.withInputs rest).refuse .errIllegal) ∨
    (decode w = .ok .next ∧ s.engine.seeded = false ∧
      t = (s.withInputs rest).refuse .errNotSeeded) ∨
    (decode w = .ok .next ∧ s.engine.seeded = true ∧
      t = ((s.withInputs rest).withEngine s.engine.refill.consume).respond .ok
        s.engine.refill.consume.drawn) ∨
    (∃ len, decode w = .ok (.init len) ∧ t = ((s.withInputs rest).withEngine
      (s.engine.initialize (effectiveSeed s.engine.S len)).setSeeded).respond .ok 0) ∨
    (∃ len, decode w = .ok (.reseed len) ∧ s.engine.seeded = false ∧
      t = (s.withInputs rest).refuse .errNotSeeded) ∨
    (∃ len, decode w = .ok (.reseed len) ∧ s.engine.seeded = true ∧
      t = ((s.withInputs rest).withEngine
        (s.engine.reseed (effectiveSeed s.engine.S len))).respond .ok 0) ∨
    (∃ addr byte, decode w = .ok (.seedw addr byte) ∧
      t = ((s.withInputs rest).withEngine (s.engine.writeSeed addr byte)).respond .ok 0) := by
  rcases step_cases h with ⟨h1, _⟩ | ⟨p, r, h1, _⟩ | ⟨w', r', x, h1, h2, h3⟩ | ⟨w', r', i, h1, h2, h3⟩
  · rw [hi] at h1; cases h1
  · rw [hi] at h1; cases h1
  · rw [hi] at h1; cases h1; exact .inl ⟨x, h2, h3⟩
  · rw [hi] at h1; cases h1
    rcases decode_cases h2 with rfl | rfl | rfl | rfl
    · cases hs : s.engine.seeded
      · simp only [exec, execNext, Host.Outcome.next.injEq,
          State.ifSeeded_unseeded (s := s.withInputs rest) _ hs] at h3
        exact .inr (.inl ⟨h2, rfl, h3.symm⟩)
      · simp only [exec, execNext, Host.Outcome.next.injEq,
          State.ifSeeded_seeded (s := s.withInputs rest) _ hs] at h3
        exact .inr (.inr (.inl ⟨h2, rfl, h3.symm⟩))
    · simp only [exec, execInit, Host.Outcome.next.injEq] at h3
      exact .inr (.inr (.inr (.inl ⟨_, h2, h3.symm⟩)))
    · cases hs : s.engine.seeded
      · simp only [exec, execReseed, Host.Outcome.next.injEq,
          State.ifSeeded_unseeded (s := s.withInputs rest) _ hs] at h3
        exact .inr (.inr (.inr (.inr (.inl ⟨_, h2, rfl, h3.symm⟩))))
      · simp only [exec, execReseed, Host.Outcome.next.injEq,
          State.ifSeeded_seeded (s := s.withInputs rest) _ hs] at h3
        exact .inr (.inr (.inr (.inr (.inr (.inl ⟨_, h2, rfl, h3.symm⟩)))))
    · simp only [exec, execSeedw, Host.Outcome.next.injEq] at h3
      exact .inr (.inr (.inr (.inr (.inr (.inr ⟨_, _, h2, h3.symm⟩)))))

theorem run_zero (s : State) : run 0 s = .next s := rfl

/-- A run goes on from the state its first step answers. -/
theorem run_succ {s t : State} (k : Nat) (h : step s = .next t) : run (k + 1) s = run k t := by
  unfold run
  rw [Host.Core.run.eq_2 Sys2Proof.core s k]
  have h' : Sys2Proof.core.step s = .next t := h
  rw [h']

end Machine

end Sys2Proof
end

