-- ==== Sys2Proof/Laws/Decode.lean ====
section
/-! SUPPORT. The fields of a command word and the words of the encoder, as numbers: what a round trip of
an encoding rests on. -/

namespace Sys2Proof

theorem opField_toNat (w : CmdWord) : (opField w).toNat = w.toNat % 16 := by
  simp [opField]

theorem lenField_toNat (w : CmdWord) : (lenField w).toNat = w.toNat / 16 := by
  have := w.isLt
  simp [lenField, Nat.shiftRight_eq_div_pow]
  omega

theorem addrField_toNat (w : CmdWord) : (addrField w).toNat = w.toNat / 16 % 1024 := by
  simp [addrField, Nat.shiftRight_eq_div_pow]

theorem zeroLoField_toNat (w : CmdWord) : (zeroLoField w).toNat = w.toNat / 16384 % 4 := by
  simp [zeroLoField, Nat.shiftRight_eq_div_pow]

theorem byteField_toNat (w : CmdWord) : (byteField w).toNat = w.toNat / 65536 % 256 := by
  simp [byteField, Nat.shiftRight_eq_div_pow]

theorem zeroHiField_toNat (w : CmdWord) : (zeroHiField w).toNat = w.toNat / 16777216 := by
  have := w.isLt
  simp [zeroHiField, Nat.shiftRight_eq_div_pow]
  omega

/-- A format L word is `len` times 16 plus the opcode (R91). -/
theorem lenWord_toNat (len : SeedLen) (op : CmdWord) (h : op.toNat < 16) :
    ((len.setWidth 32 <<< 4) ||| op).toNat = len.toNat * 16 + op.toNat := by
  have hl := len.isLt
  rw [BitVec.toNat_or, BitVec.toNat_shiftLeft, BitVec.toNat_setWidth,
    Nat.mod_eq_of_lt (by omega : len.toNat < 2 ^ 32), Nat.mod_eq_of_lt (by rw [Nat.shiftLeft_eq]; omega),
    ← Nat.shiftLeft_add_eq_or_of_lt (by simpa using h), Nat.shiftLeft_eq]

/-- A format W word is `byte` times 2^16 plus `addr` times 16 plus the opcode (R91). -/
theorem seedwWord_toNat (addr : SeedAddr) (byte : Byte) :
    ((byte.setWidth 32 <<< 16) ||| (addr.setWidth 32 <<< 4) ||| 4#32).toNat =
      byte.toNat * 65536 + addr.toNat * 16 + 4 := by
  have hb := byte.isLt
  have ha := addr.isLt
  rw [BitVec.or_assoc, BitVec.toNat_or, BitVec.toNat_or, BitVec.toNat_shiftLeft, BitVec.toNat_shiftLeft,
    BitVec.toNat_setWidth, BitVec.toNat_setWidth,
    Nat.mod_eq_of_lt (by omega : byte.toNat < 2 ^ 32), Nat.mod_eq_of_lt (by omega : addr.toNat < 2 ^ 32),
    Nat.mod_eq_of_lt (by rw [Nat.shiftLeft_eq]; omega), Nat.mod_eq_of_lt (by rw [Nat.shiftLeft_eq]; omega),
    ← Nat.shiftLeft_add_eq_or_of_lt (by decide : (4#32).toNat < 2 ^ 4),
    ← Nat.shiftLeft_add_eq_or_of_lt (by rw [Nat.shiftLeft_eq]; simp; omega),
    Nat.shiftLeft_eq, Nat.shiftLeft_eq]
  simp only [BitVec.toNat_ofNat]
  omega

/-- A word with opcode 2 is INIT with its length field (R86). -/
theorem decode_init {w : CmdWord} (h : w.toNat % 16 = 2) : decode w = .ok (.init (lenField w)) := by
  have h' : opField w = 2#4 := BitVec.eq_of_toNat_eq (by rw [opField_toNat, h]; rfl)
  simp [decode, h']

/-- A word with opcode 3 is RESEED with its length field (R86). -/
theorem decode_reseed {w : CmdWord} (h : w.toNat % 16 = 3) :
    decode w = .ok (.reseed (lenField w)) := by
  have h' : opField w = 3#4 := BitVec.eq_of_toNat_eq (by rw [opField_toNat, h]; rfl)
  simp [decode, h']

/-- A word with opcode 4 and clear reserved fields is SEEDW with its address and byte fields (R86). -/
theorem decode_seedw {w : CmdWord} (h : w.toNat % 16 = 4) (hi : w.toNat / 16777216 = 0)
    (lo : w.toNat / 16384 % 4 = 0) : decode w = .ok (.seedw (addrField w) (byteField w)) := by
  have h' : opField w = 4#4 := BitVec.eq_of_toNat_eq (by rw [opField_toNat, h]; rfl)
  have hi' : zeroHiField w = 0#8 := BitVec.eq_of_toNat_eq (by rw [zeroHiField_toNat, hi]; rfl)
  have lo' : zeroLoField w = 0#2 := BitVec.eq_of_toNat_eq (by rw [zeroLoField_toNat, lo]; rfl)
  simp [decode, h', hi', lo']

/-- The one NEXT word (R86). -/
theorem decode_next {w : CmdWord} (h : w.toNat = 1) : decode w = .ok .next := by
  have h' : opField w = 1#4 := BitVec.eq_of_toNat_eq (by rw [opField_toNat, h]; rfl)
  have hl : lenField w = 0#28 := BitVec.eq_of_toNat_eq (by rw [lenField_toNat, h]; rfl)
  simp [decode, h', hl]

end Sys2Proof
end

