-- ==== Sys2Proof/Laws/PerInstr.lean ====
section
/-! SUPPORT. The statements made per instruction: one lemma per constructor of `Instr`. -/

namespace Sys2Proof.Laws.RoundTrip

/-- A word that the encoder gives for the instruction decodes to the instruction, and the instruction has
a word exactly when it is well-formed (R86, R89, R91). -/
def Statement (i : Instr) : Prop :=
  (∀ w, encode i = some w → decode w = .ok i) ∧ ((encode i).isSome = i.wellFormed)

theorem next : Statement .next :=
  ⟨fun w h => by cases h; exact decode_next rfl, rfl⟩

theorem init (len : SeedLen) : Statement (.init len) := by
  refine ⟨fun w h => ?_, rfl⟩
  cases h
  have hn := lenWord_toNat len 2#32 (by decide)
  rw [decode_init (by rw [hn]; simp)]
  have : lenField ((len.setWidth 32 <<< 4) ||| 2#32) = len :=
    BitVec.eq_of_toNat_eq (by rw [lenField_toNat, hn]; simp; omega)
  rw [this]

theorem reseed (len : SeedLen) : Statement (.reseed len) := by
  refine ⟨fun w h => ?_, rfl⟩
  cases h
  have hn := lenWord_toNat len 3#32 (by decide)
  rw [decode_reseed (by rw [hn]; simp)]
  have : lenField ((len.setWidth 32 <<< 4) ||| 3#32) = len :=
    BitVec.eq_of_toNat_eq (by rw [lenField_toNat, hn]; simp; omega)
  rw [this]

theorem seedw (addr : SeedAddr) (byte : Byte) : Statement (.seedw addr byte) := by
  refine ⟨fun w h => ?_, rfl⟩
  cases h
  have hn := seedwWord_toNat addr byte
  have ha := addr.isLt
  have hb := byte.isLt
  rw [decode_seedw (by rw [hn]; omega) (by rw [hn]; omega) (by rw [hn]; omega)]
  have h1 : addrField ((byte.setWidth 32 <<< 16) ||| (addr.setWidth 32 <<< 4) ||| 4#32) = addr :=
    BitVec.eq_of_toNat_eq (by rw [addrField_toNat, hn]; omega)
  have h2 : byteField ((byte.setWidth 32 <<< 16) ||| (addr.setWidth 32 <<< 4) ||| 4#32) = byte :=
    BitVec.eq_of_toNat_eq (by rw [byteField_toNat, hn]; omega)
  rw [h1, h2]

theorem mix : Statement .mix := ⟨fun _ h => (nomatch h), rfl⟩

theorem fold (len : SeedLen) : Statement (.fold len) := ⟨fun _ h => (nomatch h), rfl⟩

theorem premix : Statement .premix := ⟨fun _ h => (nomatch h), rfl⟩

theorem derive1 : Statement .derive1 := ⟨fun _ h => (nomatch h), rfl⟩

theorem derive2 : Statement .derive2 := ⟨fun _ h => (nomatch h), rfl⟩

theorem update : Statement .update := ⟨fun _ h => (nomatch h), rfl⟩

end Sys2Proof.Laws.RoundTrip
end

