-- ==== Sys2Proof/Tests/Slice0.lean ====
section
/-! SUPPORT. The model's own tests, each about one step or one operation. Expected values are those of
spec/95_test_vectors.md (named in the docstring) or are worked out by hand from the rule named. The second
half shows, for every statement with hypotheses, that they can be met together. -/

namespace Sys2Proof.Tests

open Sys2Proof Sys2Proof.Machine Sys2Proof.Spec

/-! ## Helpers -/

/-- A bank that is zero but for its first and last words. -/
def bankOf (first last : W64) : Bank := (Bank.zero.write 255 last).write 0 first

/-- An engine that is not seeded, all unspecified state zero. -/
def blank : Engine := Engine.reset namedResetContents

/-- A seeded engine with `n` words left, `R[0] = 7` and `b = R[255] = 9`. -/
def primed (n : Count) : Engine := { blank with n := n, b := 9, R := bankOf 7 9, seeded := true }

/-- A machine around an engine, with these inputs issued. -/
def around (e : Engine) (inputs : List Input) : State :=
  { engine := e, inputs := inputs, responses := [], resets := 0 }

/-- What an instruction leaves in the engine. -/
def engineAfter (i : Instr) (e : Engine) : Engine :=
  match exec i (around e []) with
  | .next t => t.engine
  | .fault _ => e
  | .refused _ => e

/-- The responses of one instruction. -/
def answersOf (i : Instr) (e : Engine) : List Response :=
  match exec i (around e []) with
  | .next t => t.responses
  | .fault _ => []
  | .refused _ => []

/-! ## Well-formedness: the check refuses each instruction that has no encoding -/

theorem test_wellFormed_accepts_commands :
    Instr.next.wellFormed = true ∧ (Instr.init 0xFFFFFFF#28).wellFormed = true ∧
    (Instr.reseed 0#28).wellFormed = true ∧ (Instr.seedw 1023#10 255#8).wellFormed = true := by
  decide

theorem test_wellFormed_refuses_mix : Instr.mix.wellFormed = false := by decide
theorem test_wellFormed_refuses_fold : (Instr.fold 3#28).wellFormed = false := by decide
theorem test_wellFormed_refuses_premix : Instr.premix.wellFormed = false := by decide
theorem test_wellFormed_refuses_derive1 : Instr.derive1.wellFormed = false := by decide
theorem test_wellFormed_refuses_derive2 : Instr.derive2.wellFormed = false := by decide
theorem test_wellFormed_refuses_update : Instr.update.wellFormed = false := by decide

/-! ## Decoding: words written out from the formats of 30_encoding R81 -/

/-- Format N: 28 zero bits, then `op` 0001. -/
theorem test_decode_next : decode (0#28 ++ 0b0001#4) = .ok .next := by decide

/-- Format L: `len`, then `op` 0010; 8 is 1000. -/
theorem test_decode_init : decode (0b0000000000000000000000001000#28 ++ 0b0010#4) = .ok (.init 8) := by
  decide

/-- The largest length: all 28 bits set (section 8). -/
theorem test_decode_init_largest : decode 0xFFFFFFF2#32 = .ok (.init 268435455) := by decide

/-- Format L: `len`, then `op` 0011; 3 is 11. -/
theorem test_decode_reseed : decode (0b0000000000000000000000000011#28 ++ 0b0011#4) = .ok (.reseed 3) := by
  decide

/-- Format W: `zero_hi` 8 bits, `byte` 8, `zero_lo` 2, `addr` 10, `op` 0100; SEEDW 513, 0x81. -/
theorem test_decode_seedw :
    decode (0b00000000#8 ++ 0b10000001#8 ++ 0b00#2 ++ 0b1000000001#10 ++ 0b0100#4) =
      .ok (.seedw 513 0x81) := by
  decide

/-- The illegal words of section 8, by the group of R84 that each falls under. -/
theorem test_decode_illegal :
    decode 0x00000011#32 = .error .nextZeroField ∧ decode 0x80000001#32 = .error .nextZeroField ∧
    decode 0x01000004#32 = .error .seedwZeroField ∧ decode 0x00004004#32 = .error .seedwZeroField ∧
    decode 0x00008004#32 = .error .seedwZeroField ∧
    decode 0x00000000#32 = .error (.unassignedOpcode 0) ∧
    decode 0x00000005#32 = .error (.unassignedOpcode 5) ∧
    decode 0xFFFFFFFF#32 = .error (.unassignedOpcode 15) := by
  decide

/-- The words of program P1 and P3 and of section 8. -/
theorem test_encode :
    encode .next = some 0x00000001#32 ∧ encode (.init 1030) = some 0x00004062#32 ∧
    encode (.reseed 3) = some 0x00000033#32 ∧ encode (.seedw 0 42) = some 0x002A0004#32 ∧
    encode (.seedw 1023 0xFF) = some 0x00FF3FF4#32 := by
  decide

/-- The internal operations have no word (R89). -/
theorem test_encode_internal :
    encode .mix = none ∧ encode (.fold 3) = none ∧ encode .premix = none ∧ encode .derive1 = none ∧
    encode .derive2 = none ∧ encode .update = none := by
  decide

/-- A table row of 32 bits, as the host asks for it. -/
theorem test_decodeTableWord :
    decodeTableWord 32 0x002A0004 = some (.seedw 0 42) ∧ decodeTableWord 32 0x11 = none := by
  decide

/-- The word placed by `withFetchWord` is what the next step runs: SEEDW 0, 42 (program P1). -/
theorem test_withFetchWord :
    ∃ t, step (State.reset.withFetchWord 32 0x002A0004) = .next t ∧
      t.engine.S = [(0, 42#8)] ∧ t.responses = [⟨.ok, 0⟩] ∧ t.inputs = [] :=
  ⟨_, rfl, by decide +kernel, rfl, rfl⟩

/-! ## SEEDW -/

/-- Program P1, first command; and its answer. -/
theorem test_seedw_writes :
    (engineAfter (.seedw 0 42) blank).S = [(0, 42#8)] ∧ answersOf (.seedw 0 42) blank = [⟨.ok, 0⟩] := by
  decide +kernel

/-- A zero byte at the last address leaves the canonical form: no cell (R29, R36). -/
theorem test_seedw_zero_unlists :
    (engineAfter (.seedw 1023 0) { blank with S := [(4, 1#8), (1023, 0xFF#8)] }).S = [(4, 1#8)] := by
  decide +kernel

/-! ## MIX and PREMIX -/

/-- Vector M2. -/
theorem test_mix_m2 : (engineAfter .mix { blank with X := #v[0, 1, 2, 3, 4, 5, 6, 7] }).X =
    #v[0xFFFFFFFFFC01FFF8, 0x0003FFFFF80007F8, 0xFFFFC1E000C00803, 0xFFFF81FE03FE03EC,
       0xF07BFFCFF7FD3819, 0xFFFC3E20073FE810, 0x0000BE21FB41EC13, 0x00008001FC01FC10] := by
  decide +kernel

/-- Vector M4: the right shifts fill with zeros. -/
theorem test_mix_m4 :
    (engineAfter .mix { blank with X := #v[0, 0, 0, 0, 0, 0, 0, 0x8000000000000000] }).X =
    #v[0xFFC0000000000000, 0xFFC1FFFFF8020000, 0x7FFFFE0080000000, 0x803FFE3F800003FF,
       0x00C1E00007FE0000, 0x807E01FF87FE0000, 0x7FC005BF7FFFFC01, 0xFFC003BFFFFFFC01] := by
  decide +kernel

/-- Vector M6, after 4. -/
theorem test_premix_m6 : (engineAfter .premix (primed 3)).X =
    #v[0x647C4677A2884B7C, 0xB9F8B322C73AC862, 0x8C0EA5053D4712A0, 0xB29B2E824A595524,
       0x82F053DB8355E0CE, 0x48FE4A0FA5A09315, 0xAE985BF2CBFC89ED, 0x98F5704F6C44C0AB] := by
  decide +kernel

/-! ## FOLD -/

/-- Vector F6: a full group and a partial group of one byte. -/
theorem test_fold_f6 :
    (foldSeed [1, 2, 3, 4, 5, 6, 7, 8, 9] Bank.zero).read 0 = 0x0807060504030201#64 ∧
    (foldSeed [1, 2, 3, 4, 5, 6, 7, 8, 9] Bank.zero).read 1 = 9#64 ∧
    (foldSeed [1, 2, 3, 4, 5, 6, 7, 8, 9] Bank.zero).read 2 = 0#64 := by
  decide +kernel

/-- Vectors F2 and F3, through the instruction: the seed stands in `S`; F2 over the word it gave is 0. -/
theorem test_fold_partial :
    (engineAfter (.fold 1) { blank with S := [(0, 0x80#8), (1, 1#8)] }).R.read 0 = 0x80#64 ∧
    (engineAfter (.fold 3) { blank with
      S := [(0, 0x61#8), (1, 0x62#8), (2, 0x63#8)], R := bankOf 0x636261 0 }).R.read 0 = 0#64 := by
  decide +kernel

/-! ## The derivation passes, one block each -/

/-- E1 and E2, block 0 of DERIVE1 over a zero `R`: the fifth MIX of the constant. -/
theorem test_derive1_block0 :
    let e := Engine.deriveBlock Bank.zero 0 { blank with X := premixed }
    e.M.read 0 = 0xF24E3209FA0F019B#64 ∧ e.M.read 7 = 0xB1C575E1BB1E8496#64 ∧
    e.M.read 8 = 0#64 ∧ e.X[7] = 0xB1C575E1BB1E8496#64 := by
  decide +kernel

/-- A block of DERIVE2 over a zero pool but for the words of M2, `X` zero: vector M2 in place. -/
theorem test_derive2_block31 :
    let M := copyBlock #v[0, 1, 2, 3, 4, 5, 6, 7] 31 Bank.zero
    let e := Engine.deriveBlock M 31 { blank with M := M }
    e.M.read 248 = 0xFFFFFFFFFC01FFF8#64 ∧ e.M.read 255 = 0x00008001FC01FC10#64 ∧
    e.M.read 247 = 0#64 := by
  decide +kernel

/-! ## UPDATE, its first word steps -/

/-- Vector U1, step 7: all four transforms have run twice. -/
theorem test_update_u1 :
    let w := forUpTo updateStep 8 (updateStart blank)
    w.a = 0xF80FFBFE03E7FDFF#64 ∧ w.b = 0#64 ∧ w.M.read 1 = 0xF800000000000000#64 ∧
    w.M.read 3 = 0xF80000007C000000#64 := by
  decide +kernel

/-- Vector U2, step 0: `c` wraps, and `highIndex == i` reads the new value. -/
theorem test_update_u2 :
    let e := { blank with b := 5, c := 0xFFFFFFFFFFFFFFFF }
    let w := forUpTo updateStep 1 (updateStart e)
    w.a = 0xFFFFFFFFFFFFFFFF#64 ∧ w.b = 4#64 ∧ w.M.read 0 = 4#64 ∧ w.R.read 0 = 4#64 ∧
    (engineAfter .update e).c = 0#64 ∧ (engineAfter .update e).n = 256#9 := by
  decide +kernel

/-- Vector U4, row `i = 2`: `lowIndex` 188, `highIndex` 213; and partners of rows 127 and 128. -/
theorem test_index_fields :
    lowIndex 0x7F426A54C8277DE4 = 188#8 ∧ highIndex 0xB80B709D9D0EAED7 = 213#8 ∧
    partner 127 = 255#8 ∧ partner 128 = 0#8 := by
  decide

/-! ## INIT, RESEED, NEXT -/

/-- INIT runs in every state: `c` is 1, `n` 256, `seeded` 1, answered OK (R160). -/
theorem test_init_completes :
    (engineAfter (.init 0) blank).c = 1#64 ∧ (engineAfter (.init 0) blank).n = 256#9 ∧
    (engineAfter (.init 0) blank).seeded = true ∧ answersOf (.init 0) blank = [⟨.ok, 0⟩] := by
  refine ⟨?_, ?_, rfl, rfl⟩
  · simp only [engineAfter, exec, execInit, around, State.respond_engine, State.withEngine_engine,
      Engine.setSeeded_c]
    exact (Engine.initialize_rest _ _).1
  · simp only [engineAfter, exec, execInit, around, State.respond_engine, State.withEngine_engine,
      Engine.setSeeded_n]
    exact (Engine.initialize_rest _ _).2.1

/-- RESEED before seeding is refused (program P4). -/
theorem test_reseed_unseeded :
    answersOf (.reseed 0) blank = [⟨.errNotSeeded, 0⟩] ∧ engineAfter (.reseed 0) blank = blank :=
  ⟨by decide +kernel, rfl⟩

/-- NEXT before seeding is refused (program P4). -/
theorem test_next_unseeded :
    answersOf .next blank = [⟨.errNotSeeded, 0⟩] ∧ engineAfter .next blank = blank :=
  ⟨by decide +kernel, rfl⟩

/-- R190, R191: with 256 words left the word is `R[255]`; with one left it is `R[0]`. -/
theorem test_next_draws :
    answersOf .next (primed 256) = [⟨.ok, 9⟩] ∧ (engineAfter .next (primed 256)).n = 255#9 ∧
    answersOf .next (primed 1) = [⟨.ok, 7⟩] ∧ (engineAfter .next (primed 1)).n = 0#9 := by
  decide +kernel

/-! ## The step and the channels -/

/-- Section 8: an illegal word before seeding is `status = 1` (R205), and takes nothing but its place. -/
theorem test_step_illegal :
    step (around blank [.command 0x11, .command 1]) =
      .next { around blank [.command 1] with responses := [⟨.errIllegal, 0⟩] } := rfl

/-- R230: reset between commands abandons nothing and answers nothing. -/
theorem test_step_reset :
    ∃ t, step (around (primed 3) [.reset none, .command 1]) = .next t ∧
      t.engine.seeded = false ∧ t.engine.S = [] ∧ t.inputs = [.command 1] ∧ t.responses = [] :=
  ⟨_, rfl, rfl, rfl, rfl, rfl⟩

/-- R87, R88: status above data. -/
theorem test_response_word :
    Response.word ⟨.errNotSeeded, 0⟩ = 0x20000000000000000#68 ∧
    Response.word ⟨.ok, 0xBBD61FA5105A596A⟩ = 0xBBD61FA5105A596A#68 := by
  decide

/-- R92 and program P1: the words of `INIT64 42; DRAW 1`. -/
theorem test_init64_words :
    issue ((Pseudo.init64 42).expand ++ (Pseudo.draw 1).expand) =
      [.command 0x002A0004, .command 0x00000014, .command 0x00000024, .command 0x00000034,
       .command 0x00000044, .command 0x00000054, .command 0x00000064, .command 0x00000074,
       .command 0x00000082, .command 0x00000001] := by
  decide +kernel

/-- R91: the notation of a command. -/
theorem test_render : render (.seedw 0 42) = some "SEEDW 0, 42" ∧ render .update = none := by
  decide +kernel

/-! ## Witnesses: the hypotheses of the statements can be met -/

theorem witness_EncodedCommandsDecodeBack :
    Instr.next.wellFormed = true ∧ (Instr.init 0).wellFormed = true ∧
    (Instr.init 0xFFFFFFF).wellFormed = true ∧ (Instr.reseed 0xFFFFFFF).wellFormed = true ∧
    (Instr.seedw 1023 255).wellFormed = true := by
  decide

theorem witness_DecodedWordsEncodeBack :
    decode 0x00000001#32 = .ok .next ∧ decode 0xFFFFFFF3#32 = .ok (.reseed 0xFFFFFFF) := by
  decide

/-- One word for each clause, at the ends of its range; the clauses differ in the low four bits. -/
theorem witness_OpcodeMapSelectsRow :
    (0x00000001#32 &&& 0xFFFFFFFF = 0x00000001) ∧
    (0x00000002#32 &&& 0x0000000F = 0x00000002) ∧ (0xFFFFFFF2#32 &&& 0x0000000F = 0x00000002) ∧
    (0x00000003#32 &&& 0x0000000F = 0x00000003) ∧ (0xFFFFFFF3#32 &&& 0x0000000F = 0x00000003) ∧
    (0x00000004#32 &&& 0xFF00C00F = 0x00000004) ∧ (0x00FF3FF4#32 &&& 0xFF00C00F = 0x00000004) ∧
    (0x01000004#32 &&& 0xFFFFFFFF ≠ 0x00000001 ∧ 0x01000004#32 &&& 0x0000000F ≠ 0x00000002 ∧
      0x01000004#32 &&& 0x0000000F ≠ 0x00000003 ∧ 0x01000004#32 &&& 0xFF00C00F ≠ 0x00000004) := by
  decide

theorem witness_IllegalWordsAreAnswered :
    illegalWord 0x00000000 ∧ illegalWord 0x00000005 ∧ illegalWord 0xFFFFFFFF ∧
    illegalWord 0x00000011 ∧ illegalWord 0x80000001 ∧ illegalWord 0x01000004 ∧
    illegalWord 0x00004004 ∧ illegalWord 0x00008004 ∧
    (around blank [.command 0, .command 1]).inputs = .command 0 :: [.command 1] := by
  refine ⟨?_, ?_, ?_, ?_, ?_, ?_, ?_, ?_, rfl⟩ <;> unfold illegalWord <;> decide

theorem witness_InternalOperationsHaveNoWord : decode 0x00FF3FF4#32 = .ok (.seedw 1023 255) := by
  decide

theorem witness_StepRunsDecodedCommand :
    (around (primed 1) [.command 1, .command 2]).inputs = .command 1 :: [.command 2] ∧
    decode 1#32 = .ok .next :=
  ⟨rfl, by decide⟩

theorem witness_IdleEngineHoldsItsState : State.reset.inputs = [] := rfl

/-- A step on a legal and on an illegal word: `EveryCommandGetsOneResponse`, `OnlyDrawsCarryData`,
`StatusSaysWhatHappened`, `CounterCountsUpdates`. -/
theorem witness_EveryCommandGetsOneResponse :
    (around (primed 256) [.command 1]).inputs = .command 1 :: [] ∧
    (∃ t, step (around (primed 256) [.command 1]) = .next t) ∧
    (around blank [.command 0x11]).inputs = .command 0x11 :: [] ∧
    (∃ t, step (around blank [.command 0x11]) = .next t) :=
  ⟨rfl, ⟨_, rfl⟩, rfl, ⟨_, rfl⟩⟩

/-- The clause of the drawn word: a NEXT answered OK, with one word left and with none. The clause of data
0: a NEXT refused, a SEEDW answered OK, and an illegal word. -/
theorem witness_OnlyDrawsCarryData :
    (∃ t, step (around (primed 1) [.command 1]) = .next t ∧ t.responses = [⟨.ok, 7⟩]) ∧
    (∃ t r, step (around (primed 0) [.command 1]) = .next t ∧ t.responses = [r] ∧ r.status = .ok) ∧
    decode 1#32 = .ok .next ∧
    (∃ t, step (around blank [.command 1]) = .next t ∧ t.responses = [⟨.errNotSeeded, 0⟩]) ∧
    (∃ t, step (around (primed 1) [.command 0x002A0004]) = .next t ∧ t.responses = [⟨.ok, 0⟩]) ∧
    decode 0x002A0004#32 ≠ .ok .next ∧
    ∃ t, step (around (primed 1) [.command 0x11]) = .next t ∧ t.responses = [⟨.errIllegal, 0⟩] :=
  ⟨⟨_, rfl, by decide +kernel⟩, ⟨_, _, rfl, rfl, rfl⟩, by decide, ⟨_, rfl, rfl⟩, ⟨_, rfl, rfl⟩,
    by decide, ⟨_, rfl, rfl⟩⟩

theorem witness_StatusSaysWhatHappened :
    (around blank [.command 3]).inputs = .command 3 :: [] ∧
    (∃ t, step (around blank [.command 3]) = .next t) ∧ blank.seeded = false ∧
    decode 3#32 = .ok (.reseed 0) :=
  ⟨rfl, ⟨_, rfl⟩, rfl, by decide⟩

theorem witness_RefusedCommandsChangeNothing :
    step (around (primed 3) [.command 5]) =
      .next { around (primed 3) [] with responses := [⟨.errIllegal, 0⟩] } ∧
    Status.errIllegal ≠ .ok :=
  ⟨rfl, by decide⟩

theorem witness_AssertedResetLeavesResetState :
    (around (primed 3) [.reset none]).inputs = .reset none :: [] ∧
    (around (primed 3) [.reset (some 2), .command 1]).inputs = .reset (some 2) :: [.command 1] :=
  ⟨rfl, rfl⟩

theorem witness_SeedwWritesOneByte :
    State.reset.engine.S.wf = true ∧
    (around { blank with S := [(0, 1#8), (1023, 255#8)] } []).engine.S.wf = true := by
  decide +kernel

theorem witness_SeedwKeepsLaterByte :
    State.reset.engine.S.wf = true ∧
    ∃ t u v, exec (.seedw 1023 1) State.reset = .next t ∧ exec (.seedw 1023 0) t = .next u ∧
      exec (.seedw 1023 0) State.reset = .next v :=
  ⟨rfl, _, _, _, rfl, rfl, rfl⟩

theorem witness_MixKeepsZeroBuffer : (around (primed 3) []).engine.X = Vector.replicate 8 0 := rfl

/-- The words FOLD can reach end at 127. -/
theorem witness_FoldReadsEffectiveSeed : 128 ≤ (128#8).toNat ∧ 128 ≤ (255#8).toNat := by decide

/-- R173, one sub-step at a time: the model's transform and the statement's. -/
theorem accumulate_newA (i : Nat) (a p : W64) : accumulate i a + p = newA i a p := by
  unfold accumulate newA
  have : i % 4 = 0 ∨ i % 4 = 1 ∨ i % 4 = 2 ∨ i % 4 = 3 := by omega
  rcases this with h | h | h | h <;> rw [h] <;> simp

/-- The sequences of R178 exist for the all-zero engine of vector U1. -/
theorem witness_UpdateIsTheWordChain : ∃ a b m, UpdateRun blank a b m := by
  refine ⟨fun k => (forUpTo updateStep k (updateStart blank)).a,
    fun k => (forUpTo updateStep k (updateStart blank)).b,
    fun k j => Bank.read (forUpTo updateStep k (updateStart blank)).M (BitVec.ofNat 8 j),
    ?_, ?_, ?_, ?_, ?_, ?_⟩
  · simp only [forUpTo_zero, updateStart]
  · simp only [forUpTo_zero, updateStart]
  · intro j
    simp only [forUpTo_zero, updateStart, BitVec.ofNat_toNat, BitVec.setWidth_eq]
  · intro i hi
    simp only [forUpTo_succ, updateStep, partner_ofNat hi]
    exact accumulate_newA i _ _
  · intro i hi j hj
    have hne : (BitVec.ofNat 8 j : PoolIndex) = BitVec.ofNat 8 i ↔ j = i := by
      rw [← BitVec.toNat_inj, BitVec.toNat_ofNat, BitVec.toNat_ofNat]
      omega
    have hlow (x : W64) : BitVec.ofNat 8 ((x >>> 3) &&& (255 : W64)).toNat = lowIndex x := by
      rw [show (255 : W64) = 255#64 from rfl, ← lowIndex_toNat, BitVec.ofNat_toNat, BitVec.setWidth_eq]
    simp only [forUpTo_succ, updateStep, Bank.read_write, hne, hlow]
  · intro i _
    have hhigh (y : W64) : BitVec.ofNat 8 ((y >>> 11) &&& (255 : W64)).toNat = highIndex y := by
      rw [show (255 : W64) = 255#64 from rfl, ← highIndex_toNat, BitVec.ofNat_toNat, BitVec.setWidth_eq]
    simp only [forUpTo_succ, updateStep, hhigh, Bank.read_write_same]

theorem witness_UpdateIgnoresOldResults :
    (around (primed 3) []).engine.M = (around { primed 9 with R := bankOf 1 2 } []).engine.M ∧
    (∃ t, exec .update (around (primed 3) []) = .next t) ∧
    ∃ t, exec .update (around { primed 9 with R := bankOf 1 2 } []) = .next t :=
  ⟨rfl, ⟨_, rfl⟩, ⟨_, rfl⟩⟩

theorem witness_ReseedRunsTheSequence :
    (around (primed 0) []).engine.seeded = true ∧ State.reset.engine.seeded = false := ⟨rfl, rfl⟩

theorem witness_DrawAndReseedNeedSeeding : State.reset.engine.seeded = false := rfl

theorem witness_ScratchEndsAsLastPoolBlock : ∃ t, exec .derive2 (around (primed 3) []) = .next t :=
  ⟨_, rfl⟩

/-- Seed buffers that agree below the length and differ beyond it; and lengths 1024 and 1030. -/
theorem witness_InitDependsOnEffectiveSeedOnly :
    (∀ k < min (3#28).toNat 1024, Memory.read [(0, 42#8)] k = Memory.read [(0, 42#8), (3, 1#8)] k) ∧
    (∃ t, exec (.init 3) (around { blank with S := [(0, 42#8)] } []) = .next t) ∧
    (∃ t, exec (.init 3) (around { primed 7 with S := [(0, 42#8), (3, 1#8)] } []) = .next t) ∧
    min (1030#28).toNat 1024 = min (1024#28).toNat 1024 :=
  ⟨by decide, ⟨_, rfl⟩, ⟨_, rfl⟩, by decide⟩

theorem witness_ReseedIgnoresOldPool :
    (primed 3).a = { primed 256 with M := bankOf 1 2 }.a ∧
    (primed 3).b = { primed 256 with M := bankOf 1 2 }.b ∧
    (primed 3).c = { primed 256 with M := bankOf 1 2 }.c ∧
    (primed 3).R = { primed 256 with M := bankOf 1 2 }.R ∧
    (primed 3).seeded = { primed 256 with M := bankOf 1 2 }.seeded :=
  ⟨rfl, rfl, rfl, rfl, rfl⟩

theorem witness_InitTwiceIsInitOnce :
    ∃ t u, exec (.init 8) State.reset = .next t ∧ exec (.init 8) t = .next u :=
  ⟨_, _, rfl, rfl⟩

theorem witness_OversizeLengthIsTruncated :
    1024 ≤ (1024#28).toNat ∧ 1024 ≤ (0xFFFFFFF#28).toNat := by
  decide

theorem witness_BytesBeyondLengthAreIgnored :
    (∀ k < min (3#28).toNat 1024, (primed 3).S.read k = Memory.read [(3, 1#8)] k) ∧
    (∃ t, exec (.init 3) (around (primed 3) []) = .next t) ∧
    (∃ t, exec (.reseed 3) (around (primed 3) []) = .next t) ∧
    ∃ t, exec (.reseed 3) (around { primed 3 with S := [(3, 1#8)] } []) = .next t :=
  ⟨by decide, ⟨_, rfl⟩, ⟨_, rfl⟩, ⟨_, rfl⟩⟩

/-- One state for each clause: not seeded; one word left and all 256; none left. -/
theorem witness_NextDrawsOneWord :
    blank.seeded = false ∧ (primed 1).seeded = true ∧ 1 ≤ (primed 1).n.toNat ∧
    (primed 256).seeded = true ∧ (primed 256).n.toNat ≤ 256 ∧ (primed 0).seeded = true ∧
    (primed 0).n = 0 := by
  decide

theorem witness_BatchIsDrawnDownward :
    (primed 256).seeded = true ∧ (primed 256).n = 256 ∧
    (around (primed 256) [.command 2]).inputs = List.replicate 0 (.command 1) ++ [.command 2] ∧
    (around (primed 256) (List.replicate 256 (.command 1))).inputs =
      List.replicate 256 (.command 1) ++ [] :=
  ⟨rfl, rfl, rfl, (List.append_nil _).symm⟩

/-- One draw, and the 257 that reach the second batch. -/
theorem witness_StreamAfterInitHasClosedForm :
    (around blank [.command 1]).inputs = List.replicate (0 + 1) (.command 1) ++ [] ∧
    (∃ t, exec (.init 8) (around blank [.command 1]) = .next t) ∧
    (around blank (List.replicate (256 + 1) (.command 1))).inputs =
      List.replicate (256 + 1) (.command 1) ++ [] ∧
    ∃ t, exec (.init 8) (around blank (List.replicate (256 + 1) (.command 1))) = .next t :=
  ⟨rfl, ⟨_, rfl⟩, (List.append_nil _).symm, ⟨_, rfl⟩⟩

/-- One step into `seeded` and one out of it. -/
theorem witness_OnlyInitSetsSeeded :
    (∃ t, step (around blank [.command 2]) = .next t ∧ blank.seeded = false ∧
      t.engine.seeded = true) ∧
    (∃ t, step (around (primed 3) [.reset (some 2)]) = .next t ∧ (primed 3).seeded = true ∧
      t.engine.seeded = false) ∧
    decode 2#32 = .ok (.init 0) :=
  ⟨⟨_, rfl, rfl, rfl⟩, ⟨_, rfl, rfl, rfl⟩, by decide⟩

theorem witness_OnlySeedwAndResetWriteSeedBuffer :
    (∃ t, step (around blank [.command 0x002A0004]) = .next t ∧ t.engine.S ≠ blank.S) ∧
    ∃ t, step (around { blank with S := [(0, 1#8)] } [.reset none]) = .next t ∧
      t.engine.S ≠ [(0, 1#8)] :=
  ⟨⟨_, rfl, by decide +kernel⟩, ⟨_, rfl, by decide +kernel⟩⟩

/-- A draw from a batch with one word left meets every hypothesis. -/
theorem witness_OnlySeedingAndExhaustionChangeThePool :
    (∃ t, step (around (primed 1) [.command 1]) = .next t) ∧ decode 1#32 = .ok .next ∧
    (primed 1).n ≠ 0 ∧ (around (primed 1) [.command 1]).inputs = .command 1 :: [] :=
  ⟨⟨_, rfl⟩, by decide, by decide, rfl⟩

/-- The three commands that write `c`, and one that does not. -/
theorem witness_CounterCountsUpdates :
    (∃ t, step (around (primed 3) [.command 2]) = .next t) ∧
    (∃ t, step (around (primed 3) [.command 3]) = .next t) ∧
    (∃ t, step (around (primed 0) [.command 1]) = .next t) ∧
    ∃ t, step (around (primed 3) [.command 4]) = .next t :=
  ⟨⟨_, rfl⟩, ⟨_, rfl⟩, ⟨_, rfl⟩, ⟨_, rfl⟩⟩

/-- A seeded state that meets the invariant, and its step. -/
theorem witness_StepKeepsInvariant :
    (around (primed 256) [.command 1]).Inv ∧
    ∃ t, step (around (primed 256) [.command 1]) = .next t :=
  ⟨⟨rfl, by decide, by decide +kernel, by intro r hr; cases hr⟩, ⟨_, rfl⟩⟩

/-- Two unseeded machines that agree and differ in `a` and `M`. -/
theorem witness_StepKeepsAgreement :
    (around blank [.command 2]).Agree (around { blank with a := 1, M := bankOf 1 2 } [.command 2]) ∧
    ∃ t, step (around blank [.command 2]) = .next t := by
  refine ⟨⟨⟨rfl, rfl, ?_, ?_, ?_, ?_, ?_, ?_⟩, rfl, rfl⟩, ⟨_, rfl⟩⟩ <;> intro h <;> cases h

theorem witness_ResetContentsAreUnobservable :
    (∃ s, run 1 { State.resetWith namedResetContents with inputs := [.command 2] } = .next s) ∧
    ∃ t, run 1 { State.resetWith { namedResetContents with a := 1 } with inputs := [.command 2] } =
      .next t :=
  ⟨⟨_, rfl⟩, ⟨_, rfl⟩⟩

/-- A short seed, and one longer than the seed buffer. -/
theorem witness_InitbIsInitialize :
    (around blank (issue (Pseudo.initb [1, 2, 3]).expand ++ [.command 1])).engine.S.wf = true ∧
    (around blank (issue (Pseudo.initb [1, 2, 3]).expand ++ [.command 1])).inputs =
      issue (Pseudo.initb [1, 2, 3]).expand ++ [.command 1] ∧
    (around blank (issue (Pseudo.initb (List.replicate 1030 7)).expand)).inputs =
      issue (Pseudo.initb (List.replicate 1030 7)).expand ++ [] :=
  ⟨rfl, rfl, (List.append_nil _).symm⟩

end Sys2Proof.Tests
end

section
/-! SUPPORT. The scope of the engine: a step as the meaning of the decoded command, and what a step
cannot tell apart. First one equation per branch of `step`, then what keeps two engines and two machines
in agreement, operation by operation, and then the commands and the step. -/

namespace Sys2Proof.Machine

/-! ## One equation per branch of `step` -/

/-- A step with nothing issued. -/
theorem step_of_idle {s : State} (hi : s.inputs = []) : step s = .next s := by
  unfold step
  rw [hi]

/-- A step on a reset. -/
theorem step_of_reset {s : State} {p : Option CmdWord} {rest : List Input}
    (hi : s.inputs = .reset p :: rest) : step s = .next ((s.withInputs rest).takeReset p) := by
  unfold step
  rw [hi]

/-- A step on an illegal word. -/
theorem step_of_illegal {s : State} {w : CmdWord} {rest : List Input} {r : Illegal}
    (hi : s.inputs = .command w :: rest) (hd : decode w = .error r) :
    step s = .next ((s.withInputs rest).answerIllegal r) := by
  unfold step
  simp only [hi, hd]

/-- A step on a legal word. -/
theorem step_of_legal {s : State} {w : CmdWord} {rest : List Input} {i : Instr}
    (hi : s.inputs = .command w :: rest) (hd : decode w = .ok i) :
    step s = exec i (s.withInputs rest) := by
  unfold step
  simp only [hi, hd]

/-- Settles O7: it is the branch of `step` for a legal word. -/
theorem stepRunsDecodedCommand : Obligations.StepRunsDecodedCommand := by
  unfold Obligations.StepRunsDecodedCommand
  intro s w rest i hi hd
  exact step_of_legal hi hd

/-! ## Operations on engines that agree -/

/-- Engines that are not seeded agree as soon as their seed buffers do. -/
theorem Engine.Agree.of_unseeded {e f : Engine} (hS : e.S = f.S) (he : e.seeded = false)
    (hf : f.seeded = false) : e.Agree f := by
  constructor <;> simp [hS, he, hf]

/-- Whatever two resets leave unspecified, the engines agree after them (R36). -/
theorem Engine.reset_agree (u v : ResetContents) : (Engine.reset u).Agree (Engine.reset v) :=
  .of_unseeded (by simp) (by simp) (by simp)

theorem Engine.Agree.writeSeed {e f : Engine} (h : e.Agree f) (addr : SeedAddr) (byte : Byte) :
    (e.writeSeed addr byte).Agree (f.writeSeed addr byte) :=
  ⟨by simp only [Engine.writeSeed_S, h.seedBuffer], h.seeded, h.a, h.b, h.c, h.n, h.pool, h.results⟩

theorem Engine.Agree.consume {e f : Engine} (h : e.Agree f) : e.consume.Agree f.consume :=
  ⟨h.seedBuffer, h.seeded, h.a, h.b, h.c,
    fun hs => by simp only [Engine.consume_n, h.n hs], h.pool, h.results⟩

/-- UPDATE reads nothing but what seeded engines agree on: it leaves `X` alone and overwrites `R`. -/
theorem Engine.Agree.update {e f : Engine} (h : e.Agree f) (hs : e.seeded = true) :
    e.update.Agree f.update := by
  have hw : updateSteps e = updateSteps f := updateSteps_eq (h.a hs) (h.b hs) (h.c hs) (h.pool hs)
  constructor <;> simp [hw, h.seedBuffer, h.seeded, h.c hs]

/-- Seeded engines that agree have the same `n`, so both refill or neither does. -/
theorem Engine.Agree.refill {e f : Engine} (h : e.Agree f) (hs : e.seeded = true) :
    e.refill.Agree f.refill := by
  have hn : e.n = f.n := h.n hs
  by_cases h0 : f.n = 0#9
  · rw [Engine.refill_exhausted (hn.trans h0), Engine.refill_exhausted h0]
    exact h.update hs
  · rw [Engine.refill_words_left (hn ▸ h0), Engine.refill_words_left h0]
    exact h

@[simp] theorem Engine.refill_seeded (e : Engine) : e.refill.seeded = e.seeded := by
  by_cases h0 : e.n = 0#9
  · rw [Engine.refill_exhausted h0, Engine.update_seeded]
  · rw [Engine.refill_words_left h0]

/-- Seeded engines that agree draw the same word. -/
theorem Engine.Agree.drawn {e f : Engine} (h : e.Agree f) (hs : e.seeded = true) :
    e.drawn = f.drawn := by
  unfold Engine.drawn
  rw [h.n hs, h.results hs]

/-- Reseed reads `a`, `b`, `c`, `R` and the seed only, which seeded engines agree on (R151). -/
theorem Engine.Agree.reseed {e f : Engine} (h : e.Agree f) (hs : e.seeded = true)
    (seed : List Byte) : (e.reseed seed).Agree (f.reseed seed) := by
  obtain ⟨ha, hb, hc, hn, hM, hR, _⟩ :=
    Engine.reseed_eq seed (h.a hs) (h.b hs) (h.c hs) (h.results hs)
  obtain ⟨_, _, heS, heSeeded, _⟩ := e.reseed_rest seed
  obtain ⟨_, _, hfS, hfSeeded, _⟩ := f.reseed_rest seed
  exact ⟨by rw [heS, hfS, h.seedBuffer], by rw [heSeeded, hfSeeded, h.seeded],
    fun _ => ha, fun _ => hb, fun _ => hc, fun _ => hn, fun _ => hM, fun _ => hR⟩

/-- Initialize reads the seed only, so INIT gives agreement on everything, whatever the two engines
held before in the unspecified state (R38). -/
theorem Engine.initialize_agree {e f : Engine} (hS : e.S = f.S) (seed : List Byte) :
    (e.initialize seed).setSeeded.Agree (f.initialize seed).setSeeded := by
  obtain ⟨ha, hb, hc, hn, hM, hR, _⟩ := Engine.initialize_eq e f seed
  obtain ⟨_, _, heS, _, _⟩ := e.initialize_rest seed
  obtain ⟨_, _, hfS, _, _⟩ := f.initialize_rest seed
  constructor <;> simp only [Engine.setSeeded_S, Engine.setSeeded_seeded, Engine.setSeeded_a,
    Engine.setSeeded_b, Engine.setSeeded_c, Engine.setSeeded_n, Engine.setSeeded_M,
    Engine.setSeeded_R, ha, hb, hc, hn, hM, hR, heS, hfS, hS, implies_true]

/-! ## Operations on machines that agree -/

theorem State.Agree.withInputs {s t : State} (h : s.Agree t) (rest : List Input) :
    (s.withInputs rest).Agree (t.withInputs rest) :=
  ⟨h.engine, rfl, h.responses⟩

theorem State.Agree.withEngine {s t : State} (h : s.Agree t) {e f : Engine} (he : e.Agree f) :
    (s.withEngine e).Agree (t.withEngine f) :=
  ⟨he, h.inputs, h.responses⟩

theorem State.Agree.respond {s t : State} (h : s.Agree t) (status : Status) (data : W64) :
    (s.respond status data).Agree (t.respond status data) :=
  ⟨h.engine, h.inputs, by simp only [State.respond_responses, h.responses]⟩

/-- The two machines may have counted resets differently: each takes its own free contents. -/
theorem State.Agree.takeReset {s t : State} (h : s.Agree t) (p : Option CmdWord) :
    (s.takeReset p).Agree (t.takeReset p) :=
  ⟨Engine.reset_agree _ _, h.inputs, h.responses⟩

/-- The command runs on both machines or is refused on both. -/
theorem State.Agree.ifSeeded {s t : State} (h : s.Agree t) {run : State → State}
    (hrun : s.engine.seeded = true → (run s).Agree (run t)) :
    (s.ifSeeded run).Agree (t.ifSeeded run) := by
  have hst := h.engine.seeded
  cases hs : s.engine.seeded with
  | true =>
    rw [State.ifSeeded_seeded run hs, State.ifSeeded_seeded run (hst ▸ hs)]
    exact hrun hs
  | false =>
    rw [State.ifSeeded_unseeded run hs, State.ifSeeded_unseeded run (hst ▸ hs)]
    exact h.respond .errNotSeeded 0

/-! ## The commands and the step -/

/-- Both outcomes are next states, and these agree. -/
def NextStatesAgree (o p : Host.Outcome State Fault Refusal) : Prop :=
  ∃ s t : State, o = .next s ∧ p = .next t ∧ s.Agree t

theorem NextStatesAgree.of_agree {s t : State} (h : s.Agree t) :
    NextStatesAgree (.next s) (.next t) :=
  ⟨s, t, rfl, rfl, h⟩

theorem execNext_agree {s t : State} (h : s.Agree t) :
    NextStatesAgree (execNext s) (execNext t) := by
  refine .of_agree (h.ifSeeded fun hs => ?_)
  have he : s.engine.refill.consume.Agree t.engine.refill.consume := (h.engine.refill hs).consume
  have hd := he.drawn (by simpa using hs)
  simp only [hd]
  exact (h.withEngine he).respond .ok _

theorem execInit_agree {s t : State} (h : s.Agree t) (len : SeedLen) :
    NextStatesAgree (execInit len s) (execInit len t) := by
  have hS := h.engine.seedBuffer
  refine .of_agree ?_
  rw [hS]
  exact (h.withEngine (Engine.initialize_agree hS _)).respond .ok 0

theorem execReseed_agree {s t : State} (h : s.Agree t) (len : SeedLen) :
    NextStatesAgree (execReseed len s) (execReseed len t) := by
  refine .of_agree (h.ifSeeded fun hs => ?_)
  rw [h.engine.seedBuffer]
  exact (h.withEngine (h.engine.reseed hs _)).respond .ok 0

theorem execSeedw_agree {s t : State} (h : s.Agree t) (addr : SeedAddr) (byte : Byte) :
    NextStatesAgree (execSeedw addr byte s) (execSeedw addr byte t) :=
  .of_agree ((h.withEngine (h.engine.writeSeed addr byte)).respond .ok 0)

/-- Every command that a word decodes to keeps agreement. The internal operations are left out: DERIVE1
reads `X`, on which machines that agree may differ. -/
theorem exec_agree {s t : State} (h : s.Agree t) {w : CmdWord} {i : Instr} (hd : decode w = .ok i) :
    NextStatesAgree (exec i s) (exec i t) := by
  rcases decode_cases hd with rfl | rfl | rfl | rfl
  · exact execNext_agree h
  · exact execInit_agree h _
  · exact execReseed_agree h _
  · exact execSeedw_agree h _ _

/-- Machines that agree have the same oldest input, so they take the same branch of `step`. -/
theorem step_agree {s t : State} (h : s.Agree t) : NextStatesAgree (step s) (step t) := by
  have hst := h.inputs
  match hi : s.inputs with
  | [] =>
    rw [step_of_idle hi, step_of_idle (hst ▸ hi)]
    exact .of_agree h
  | .reset p :: rest =>
    rw [step_of_reset hi, step_of_reset (hst ▸ hi)]
    exact .of_agree ((h.withInputs rest).takeReset p)
  | .command w :: rest =>
    match hd : decode w with
    | .error r =>
      rw [step_of_illegal hi hd, step_of_illegal (hst ▸ hi) hd]
      exact .of_agree ((h.withInputs rest).respond .errIllegal 0)
    | .ok i =>
      rw [step_of_legal hi hd, step_of_legal (hst ▸ hi) hd]
      exact exec_agree (h.withInputs rest) hd

/-- Settles O48: the two steps take the same branch, and every command a word decodes to reads only
what the machines agree on. -/
theorem stepKeepsAgreement : Obligations.StepKeepsAgreement := by
  unfold Obligations.StepKeepsAgreement
  intro s t s' h hstep
  obtain ⟨s₁, t', hs, ht, hagree⟩ := step_agree h
  rw [hstep] at hs
  cases hs
  exact ⟨t', ht, hagree⟩

end Sys2Proof.Machine
end

section
/-! SUPPORT. The state: what one step can leave in the engine, said once; which steps write `seeded`, `S`
and the pool; the invariant of the machine; and what INIT, DERIVE2 and a reset leave behind. -/

namespace Sys2Proof.Machine

/-! ## What a step leaves in the engine -/

/-- What one step of `s` can leave in the engine: an idle step, an illegal word and a refused command
leave it as it is; each other step is named by the input it took. -/
inductive EngineStep (s : State) : Engine → Prop
  | unchanged : EngineStep s s.engine
  | reset {p : Option CmdWord} {rest : List Input} (hi : s.inputs = .reset p :: rest)
      (u : ResetContents) : EngineStep s (Engine.reset u)
  | next {w : CmdWord} {rest : List Input} (hi : s.inputs = .command w :: rest)
      (hd : decode w = .ok .next) (hs : s.engine.seeded = true) :
      EngineStep s s.engine.refill.consume
  | init {w : CmdWord} {rest : List Input} {len : SeedLen} (hi : s.inputs = .command w :: rest)
      (hd : decode w = .ok (.init len)) :
      EngineStep s (s.engine.initialize (effectiveSeed s.engine.S len)).setSeeded
  | reseed {w : CmdWord} {rest : List Input} {len : SeedLen} (hi : s.inputs = .command w :: rest)
      (hd : decode w = .ok (.reseed len)) (hs : s.engine.seeded = true) :
      EngineStep s (s.engine.reseed (effectiveSeed s.engine.S len))
  | seedw {w : CmdWord} {rest : List Input} {addr : SeedAddr} {byte : Byte}
      (hi : s.inputs = .command w :: rest) (hd : decode w = .ok (.seedw addr byte)) :
      EngineStep s (s.engine.writeSeed addr byte)

theorem engineStep_of_command {s t : State} {w : CmdWord} {rest : List Input}
    (hi : s.inputs = .command w :: rest) (h : step s = .next t) : EngineStep s t.engine := by
  rcases command_cases hi h with ⟨_, _, rfl⟩ | ⟨_, _, rfl⟩ | ⟨hd, hs, rfl⟩ | ⟨_, hd, rfl⟩ |
    ⟨_, _, _, rfl⟩ | ⟨_, hd, hs, rfl⟩ | ⟨_, _, hd, rfl⟩
  · exact .unchanged
  · exact .unchanged
  · exact .next hi hd hs
  · exact .init hi hd
  · exact .unchanged
  · exact .reseed hi hd hs
  · exact .seedw hi hd

theorem engineStep_of_step {s t : State} (h : step s = .next t) : EngineStep s t.engine := by
  rcases step_cases h with ⟨_, rfl⟩ | ⟨_, _, hi, rfl⟩ | ⟨_, _, _, hi, _, _⟩ | ⟨_, _, _, hi, _, _⟩
  · exact .unchanged
  · exact .reset hi _
  · exact engineStep_of_command hi h
  · exact engineStep_of_command hi h

/-- A step appends nothing (idle, reset) or one response, and that response carries data only if it is
OK (R87). -/
theorem responses_of_step {s t : State} (h : step s = .next t) :
    t.responses = s.responses ∨
    ∃ r : Response, t.responses = s.responses ++ [r] ∧ (r.status ≠ .ok → r.data = 0) := by
  rcases step_cases h with ⟨_, rfl⟩ | ⟨_, _, _, rfl⟩ | ⟨_, _, _, _, _, rfl⟩ | ⟨_, _, _, hi, _, _⟩
  · exact .inl rfl
  · exact .inl rfl
  · exact .inr ⟨_, rfl, fun _ => rfl⟩
  · refine .inr ?_
    rcases command_cases hi h with ⟨_, _, rfl⟩ | ⟨_, _, rfl⟩ | ⟨_, _, rfl⟩ | ⟨_, _, rfl⟩ |
      ⟨_, _, _, rfl⟩ | ⟨_, _, _, rfl⟩ | ⟨_, _, _, rfl⟩
    · exact ⟨_, rfl, fun _ => rfl⟩
    · exact ⟨_, rfl, fun _ => rfl⟩
    · exact ⟨_, rfl, fun hne => (hne rfl).elim⟩
    · exact ⟨_, rfl, fun _ => rfl⟩
    · exact ⟨_, rfl, fun _ => rfl⟩
    · exact ⟨_, rfl, fun _ => rfl⟩
    · exact ⟨_, rfl, fun _ => rfl⟩

/-! ## The fields that a refill and the two seedings keep -/

@[simp] theorem Engine.refill_S (e : Engine) : e.refill.S = e.S := by
  by_cases h0 : e.n = 0#9
  · rw [Engine.refill_exhausted h0, Engine.update_S]
  · rw [Engine.refill_words_left h0]

@[simp] theorem Engine.reseed_S (e : Engine) (seed : List Byte) : (e.reseed seed).S = e.S := by
  obtain ⟨_, _, hS, _, _⟩ := e.reseed_rest seed
  exact hS

@[simp] theorem Engine.reseed_seeded (e : Engine) (seed : List Byte) :
    (e.reseed seed).seeded = e.seeded := by
  obtain ⟨_, _, _, hs, _⟩ := e.reseed_rest seed
  exact hs

@[simp] theorem Engine.initialize_S (e : Engine) (seed : List Byte) :
    (e.initialize seed).S = e.S := by
  rw [Engine.initialize, Engine.reseed_S, Engine.clear_S]

/-! ## The invariant -/

/-- The part of the invariant that speaks of the engine (R22, R30, and the canonical form of `S`). -/
structure Engine.Inv (e : Engine) : Prop where
  seedBuffer : e.S.wf = true
  count : e.seeded = true → e.n ≤ 256#9
  lastWord : e.seeded = true → e.b = Bank.read e.R 255#8

theorem State.Inv.engineInv {s : State} (h : s.Inv) : s.engine.Inv :=
  ⟨h.seedBuffer, h.count, h.lastWord⟩

theorem Engine.reset_inv (u : ResetContents) : (Engine.reset u).Inv := by
  constructor <;> simp [Memory.wf, Memory.wfFrom]

theorem Engine.Inv.writeSeed {e : Engine} (h : e.Inv) (addr : SeedAddr) (byte : Byte) :
    (e.writeSeed addr byte).Inv :=
  ⟨by rw [Engine.writeSeed_S]; exact Memory.wf_write byte h.seedBuffer addr.isLt,
    h.count, h.lastWord⟩

/-- Drawing a word keeps `n` in 0..255: an exhausted batch is refilled before it is counted down, so the
subtraction never wraps. `b` and `R` stay, or UPDATE writes both. -/
theorem Engine.Inv.draw {e : Engine} (h : e.Inv) : e.refill.consume.Inv := by
  by_cases h0 : e.n = 0#9
  · rw [Engine.refill_exhausted h0]
    refine ⟨h.seedBuffer, fun _ => ?_, fun _ => ?_⟩
    · rw [Engine.consume_n, Engine.update_n]
      decide
    · rw [Engine.consume_b, Engine.consume_R, Engine.update_b, Engine.update_R]
      exact updateSteps_last e
  · rw [Engine.refill_words_left h0]
    refine ⟨h.seedBuffer, fun hs => ?_, h.lastWord⟩
    have hn : e.n ≤ 256#9 := h.count hs
    rw [Engine.consume_n]
    bv_omega

theorem Engine.Inv.reseed {e : Engine} (h : e.Inv) (seed : List Byte) : (e.reseed seed).Inv := by
  obtain ⟨_, hn, hS, _, hb⟩ := e.reseed_rest seed
  exact ⟨by rw [hS]; exact h.seedBuffer, fun _ => by simp [hn], fun _ => hb⟩

theorem Engine.Inv.initialize {e : Engine} (h : e.Inv) (seed : List Byte) :
    (e.initialize seed).setSeeded.Inv := by
  obtain ⟨_, hn, hS, _, hb⟩ := e.initialize_rest seed
  exact ⟨by rw [Engine.setSeeded_S, hS]; exact h.seedBuffer,
    fun _ => by simp [hn], fun _ => hb⟩

theorem EngineStep.inv {s : State} {e : Engine} (h : EngineStep s e) (hs : s.engine.Inv) : e.Inv := by
  cases h with
  | unchanged => exact hs
  | reset _ u => exact Engine.reset_inv u
  | next => exact hs.draw
  | init => exact hs.initialize _
  | reseed => exact hs.reseed _
  | seedw => exact hs.writeSeed _ _

/-- Settles O47: the engine's part is kept by each operation that a step can perform on it, and the
response a step appends carries no data unless it is OK. -/
theorem stepKeepsInvariant : Obligations.StepKeepsInvariant := by
  unfold Obligations.StepKeepsInvariant
  intro s t hs h
  obtain ⟨hS, hn, hb⟩ := (engineStep_of_step h).inv hs.engineInv
  refine ⟨hS, hn, hb, fun r hr hne => ?_⟩
  rcases responses_of_step h with hsame | ⟨r', happ, hdata⟩
  · exact hs.noData r (hsame ▸ hr) hne
  · rw [happ, List.mem_append, List.mem_singleton] at hr
    rcases hr with hold | rfl
    · exact hs.noData r hold hne
    · exact hdata hne

/-! ## Which steps write `seeded`, `S` and the pool -/

theorem EngineStep.init_of_seeded {s : State} {e : Engine} (h : EngineStep s e)
    (h0 : s.engine.seeded = false) (h1 : e.seeded = true) :
    ∃ w rest len, s.inputs = .command w :: rest ∧ decode w = .ok (.init len) := by
  cases h with
  | init hi hd => exact ⟨_, _, _, hi, hd⟩
  | unchanged => simp [h0] at h1
  | reset => simp at h1
  | next _ _ hs => simp [h0] at hs
  | reseed _ _ hs => simp [h0] at hs
  | seedw => simp [h0] at h1

theorem EngineStep.reset_of_unseeded {s : State} {e : Engine} (h : EngineStep s e)
    (h1 : s.engine.seeded = true) (h0 : e.seeded = false) :
    ∃ p rest, s.inputs = .reset p :: rest := by
  cases h with
  | reset hi => exact ⟨_, _, hi⟩
  | unchanged => simp [h1] at h0
  | next => simp [h1] at h0
  | init => simp at h0
  | reseed => simp [h1] at h0
  | seedw => simp [h1] at h0

/-- After a step on an INIT word the engine is seeded (R160). -/
theorem step_init_seeded {s t : State} {w : CmdWord} {rest : List Input} {len : SeedLen}
    (hi : s.inputs = .command w :: rest) (hd : decode w = .ok (.init len)) (h : step s = .next t) :
    t.engine.seeded = true := by
  rw [step_of_legal hi hd, exec, execInit] at h
  cases h
  simp

/-- Settles O42: the engine a step leaves is seeded by INIT only and cleared by reset only. -/
theorem onlyInitSetsSeeded : Obligations.OnlyInitSetsSeeded := by
  unfold Obligations.OnlyInitSetsSeeded
  intro s t h
  have he := engineStep_of_step h
  exact ⟨he.init_of_seeded, he.reset_of_unseeded, fun w rest len hi hd => step_init_seeded hi hd h⟩

theorem EngineStep.seedw_or_reset {s : State} {e : Engine} (h : EngineStep s e)
    (hne : e.S ≠ s.engine.S) :
    (∃ w rest addr byte, s.inputs = .command w :: rest ∧ decode w = .ok (.seedw addr byte)) ∨
    ∃ p rest, s.inputs = .reset p :: rest := by
  cases h with
  | seedw hi hd => exact .inl ⟨_, _, _, _, hi, hd⟩
  | reset hi => exact .inr ⟨_, _, hi⟩
  | unchanged => simp at hne
  | next => simp at hne
  | init => simp at hne
  | reseed => simp at hne

/-- Settles O43: UPDATE, Reseed and Initialize read `S` at most, so only SEEDW and reset are left. -/
theorem onlySeedwAndResetWriteSeedBuffer : Obligations.OnlySeedwAndResetWriteSeedBuffer := by
  unfold Obligations.OnlySeedwAndResetWriteSeedBuffer
  intro s t h
  exact (engineStep_of_step h).seedw_or_reset

/-- Settles O44: of the steps that can change the engine, the hypotheses leave a draw with words left,
which writes `n` only, and SEEDW, which writes `S` only. -/
theorem onlySeedingAndExhaustionChangeThePool :
    Obligations.OnlySeedingAndExhaustionChangeThePool := by
  unfold Obligations.OnlySeedingAndExhaustionChangeThePool
  intro s t h hreset hinit hreseed hnext
  have he := engineStep_of_step h
  generalize t.engine = e at he ⊢
  cases he with
  | unchanged => simp
  | reset hi => exact absurd hi (hreset _ _)
  | next hi hd hs =>
    have hn : s.engine.n ≠ 0#9 := (hnext _ _ hi hd).resolve_left (by simp [hs])
    simp [Engine.refill_words_left hn]
  | init hi hd => exact absurd hd (hinit _ _ _ hi)
  | reseed hi hd hs => simp [hreseed _ _ _ hi hd] at hs
  | seedw => simp

/-! ## DERIVE2 and INIT -/

/-- Block `k` of the pool is the scratch buffer as that block of a pass leaves it (R145, R146). -/
theorem Engine.deriveBlock_read_block (src : Bank) {k : Nat} (hk : k < 32) (e : Engine) (j : Fin 8) :
    Bank.read (e.deriveBlock src k).M (blockIndex k j) =
      Scratch.read (e.deriveBlock src k).X j := by
  rw [Engine.deriveBlock_M, Engine.deriveBlock_X, copyBlock_read_block _ hk hk, if_pos rfl]

/-- DERIVE2 ends with block 31. -/
theorem Engine.derive2_last_block (e : Engine) :
    ∃ f : Engine, e.derive2 = f.deriveBlock f.M 31 := by
  unfold Engine.derive2 blocks
  exact ⟨_, forUpTo_succ (fun k (e : Engine) => e.deriveBlock e.M k) 31 e⟩

/-- Settles O33: the last block of DERIVE2 is copied from `X`, and nothing follows it. -/
theorem scratchEndsAsLastPoolBlock : Obligations.ScratchEndsAsLastPoolBlock := by
  unfold Obligations.ScratchEndsAsLastPoolBlock
  intro s t h j
  obtain ⟨f, hf⟩ := s.engine.derive2_last_block
  rw [exec, execDerive2, hf] at h
  cases h
  exact (Engine.deriveBlock_read_block f.M (by decide : 31 < 32) f j).symm

/-- The effective seed is fixed by the clamped length and the bytes of `S` below it (R141). -/
theorem effectiveSeed_congr {S S' : Memory} {len len' : SeedLen}
    (hlen : clampLen len.toNat = clampLen len'.toNat)
    (hS : ∀ k < clampLen len.toNat, S.read k = S'.read k) :
    effectiveSeed S len = effectiveSeed S' len' := by
  unfold effectiveSeed
  rw [← hlen]
  exact List.map_congr_left fun k hk => hS k (List.mem_range.1 hk)

/-- What `InitDependsOnEffectiveSeedOnly` asks of two engines that are seeded with the same bytes. -/
theorem Engine.initialize_sameGenerator (e f : Engine) (seed : List Byte) :
    Spec.sameGenerator (e.initialize seed).setSeeded (f.initialize seed).setSeeded ∧
      (e.initialize seed).setSeeded.X = (f.initialize seed).setSeeded.X := by
  obtain ⟨ha, hb, hc, hn, hM, hR, hX⟩ := Engine.initialize_eq e f seed
  simp only [Spec.sameGenerator, Engine.setSeeded_a, Engine.setSeeded_b, Engine.setSeeded_c,
    Engine.setSeeded_n, Engine.setSeeded_M, Engine.setSeeded_R, Engine.setSeeded_X,
    Engine.setSeeded_seeded, ha, hb, hc, hn, hM, hR, hX, and_self]

/-- Settles O34: Initialize is a function of the seed, and the two effective seeds are equal. -/
theorem initDependsOnEffectiveSeedOnly : Obligations.InitDependsOnEffectiveSeedOnly := by
  unfold Obligations.InitDependsOnEffectiveSeedOnly
  intro s s' t t' len len' hlen hS h h'
  have hseed : effectiveSeed s.engine.S len = effectiveSeed s'.engine.S len' :=
    effectiveSeed_congr hlen hS
  rw [exec, execInit] at h h'
  cases h
  cases h'
  simp only [State.respond_engine, State.withEngine_engine, hseed]
  exact Engine.initialize_sameGenerator _ _ _

/-! ## Reset -/

@[simp] theorem State.resetWith_engine (u : ResetContents) :
    (State.resetWith u).engine = Engine.reset u := rfl
@[simp] theorem State.resetWith_inputs (u : ResetContents) : (State.resetWith u).inputs = [] := rfl
@[simp] theorem State.resetWith_responses (u : ResetContents) :
    (State.resetWith u).responses = [] := rfl

@[simp] theorem Memory.read_nil (k : Nat) : Memory.read [] k = 0 := rfl

/-- Settles O14: reset names `seeded` and `S` itself and takes nothing of them from what is unspecified. -/
theorem resetLeavesUnseededAndZeroSeed : Obligations.ResetLeavesUnseededAndZeroSeed := by
  unfold Obligations.ResetLeavesUnseededAndZeroSeed
  exact ⟨rfl, fun u => by simp⟩

/-- Machines that agree answer agreeing states after runs of the same length (R36). -/
theorem run_agree {s t : State} (k : Nat) (h : s.Agree t) : NextStatesAgree (run k s) (run k t) := by
  induction k generalizing s t with
  | zero => exact .of_agree h
  | succ k ih =>
    obtain ⟨s', t', hs, ht, h'⟩ := step_agree h
    rw [run_succ k hs, run_succ k ht]
    exact ih h'

/-- Two machines that come out of reset and are issued the same inputs agree. -/
theorem State.resetWith_agree (u v : ResetContents) (ins : List Input) :
    ({ State.resetWith u with inputs := ins } : State).Agree
      { State.resetWith v with inputs := ins } :=
  ⟨Engine.reset_agree u v, rfl, rfl⟩

/-- Settles O49: the two reset states agree, every step keeps agreement, and machines that agree have
answered the same. -/
theorem resetContentsAreUnobservable : Obligations.ResetContentsAreUnobservable := by
  unfold Obligations.ResetContentsAreUnobservable
  intro u v ins k s t hs ht
  obtain ⟨s', t', hs', ht', h⟩ := run_agree k (State.resetWith_agree u v ins)
  rw [hs] at hs'
  rw [ht] at ht'
  cases hs'
  cases ht'
  exact h.responses

end Sys2Proof.Machine
end

section
/-! SUPPORT. The memories: what INIT leaves in the whole engine is fixed by the seed buffer and the length
operand, so a second INIT of the same length changes nothing. -/

namespace Sys2Proof.Machine

/-- INIT leaves the engine that Initialize makes of the effective seed, marked as seeded (R160). -/
theorem engine_of_exec_init {s t : State} {len : SeedLen} (h : exec (.init len) s = .next t) :
    t.engine = (s.engine.initialize (effectiveSeed s.engine.S len)).setSeeded := by
  rw [exec, execInit] at h
  cases h
  rw [State.respond_engine, State.withEngine_engine]

/-- Of the engine it starts from, a completed Initialize keeps the seed buffer only (R148). -/
theorem Engine.initialize_setSeeded_congr {e f : Engine} (hS : e.S = f.S) (seed : List Byte) :
    (e.initialize seed).setSeeded = (f.initialize seed).setSeeded := by
  obtain ⟨ha, hb, hc, hn, hM, hR, hX⟩ := Engine.initialize_eq e f seed
  exact Engine.ext_fields ha hb hc hn hM hR hX (by simp [hS]) (by simp)

/-- Settles O36: the first INIT leaves `S` as it was, so the second one runs on the same effective seed,
and that and `S` are all it takes from the engine it finds. -/
theorem initTwiceIsInitOnce : Obligations.InitTwiceIsInitOnce := by
  unfold Obligations.InitTwiceIsInitOnce
  intro s t u len h h'
  have ht := engine_of_exec_init h
  have hS : t.engine.S = s.engine.S := by rw [ht, Engine.setSeeded_S, Engine.initialize_S]
  rw [engine_of_exec_init h', hS, Engine.initialize_setSeeded_congr hS, ht]

end Sys2Proof.Machine
end

section
/-! SUPPORT. The encoding: the masks of the opcode map as fields of the word, the words that no row
admits, the status that answers each word, and the run of a seed's writes and its INIT. -/

namespace Sys2Proof.Machine

/-! ## The masks of the opcode map -/

/-- The bits of a word that the field of `len` bits at `start` takes up. -/
def fieldMask (start len : Nat) : CmdWord := (BitVec.allOnes len).setWidth 32 <<< start

/-- A word under the mask of a field is that field, in its place. -/
theorem and_fieldMask (w : CmdWord) (start len : Nat) :
    w &&& fieldMask start len = (w.extractLsb' start len).setWidth 32 <<< start := by
  ext i hi
  by_cases hlo : i < start
  · simp [fieldMask, hlo]
  · have hpos : start + (i - start) = i := by omega
    simp [fieldMask, hlo, hpos, BitVec.getLsbD_eq_getElem hi, Bool.and_comm]

/-- What is put in the place of a field is read from it. -/
theorem extractLsb'_shiftLeft_setWidth {start len : Nat} (hfit : start + len ≤ 32) (x : BitVec len) :
    (x.setWidth 32 <<< start).extractLsb' start len = x := by
  ext i hi
  have hbit : start + i < 32 := by omega
  simp [hbit, BitVec.getLsbD_eq_getElem hi]

/-- A word under the mask of a field compares with a value in that place as the field does with the
value. -/
theorem and_fieldMask_eq_iff (w : CmdWord) {start len : Nat} (hfit : start + len ≤ 32)
    (x : BitVec len) :
    w &&& fieldMask start len = x.setWidth 32 <<< start ↔ w.extractLsb' start len = x := by
  rw [and_fieldMask]
  refine ⟨fun h => ?_, fun h => by rw [h]⟩
  rw [← extractLsb'_shiftLeft_setWidth hfit (w.extractLsb' start len), h,
    extractLsb'_shiftLeft_setWidth hfit]

theorem and_fieldMask_eq_zero_iff (w : CmdWord) {start len : Nat} (hfit : start + len ≤ 32) :
    w &&& fieldMask start len = 0 ↔ w.extractLsb' start len = 0 := by
  rw [← and_fieldMask_eq_iff w hfit]
  simp

theorem and_opMask_eq_iff (w : CmdWord) (op : BitVec 4) :
    w &&& 0xF = op.setWidth 32 ↔ opField w = op := by
  have h := and_fieldMask_eq_iff w (start := 0) (by decide) op
  rwa [show fieldMask 0 4 = 0xF by decide, BitVec.shiftLeft_zero] at h

theorem and_opMask_toNat (w : CmdWord) : (w &&& 0xF).toNat = (opField w).toNat := by
  rw [opField_toNat, BitVec.toNat_and]
  exact Nat.and_two_pow_sub_one_eq_mod w.toNat 4

theorem and_zeroHiMask_eq_zero_iff (w : CmdWord) : w &&& 0xFF000000 = 0 ↔ zeroHiField w = 0 := by
  rw [show (0xFF000000 : CmdWord) = fieldMask 24 8 by decide, and_fieldMask_eq_zero_iff w (by decide),
    zeroHiField]

theorem and_zeroLoMask_eq_zero_iff (w : CmdWord) : w &&& 0x0000C000 = 0 ↔ zeroLoField w = 0 := by
  rw [show (0x0000C000 : CmdWord) = fieldMask 14 2 by decide, and_fieldMask_eq_zero_iff w (by decide),
    zeroLoField]

/-- `zero` of format N stands alone above `op`. -/
theorem ushiftRight_eq_zero_iff (w : CmdWord) : w >>> 4 = 0 ↔ lenField w = 0 := by
  rw [← BitVec.toNat_inj, ← BitVec.toNat_inj, lenField_toNat, BitVec.toNat_ushiftRight,
    Nat.shiftRight_eq_div_pow]
  rfl

/-- The mask of NEXT is the whole word, which is `op` and the `zero` of format N. -/
theorem and_nextMask_eq_iff (w : CmdWord) :
    w &&& 0xFFFFFFFF = 1 ↔ opField w = 1 ∧ lenField w = 0 := by
  rw [show (0xFFFFFFFF : CmdWord) = BitVec.allOnes 32 by decide, BitVec.and_allOnes,
    ← BitVec.toNat_inj, ← BitVec.toNat_inj, ← BitVec.toNat_inj, opField_toNat, lenField_toNat]
  simp only [BitVec.ofNat_eq_ofNat, BitVec.toNat_ofNat]
  omega

/-- The mask of SEEDW is the masks of `op`, `zero_lo` and `zero_hi` together (R85). -/
theorem and_seedwMask_eq_iff (w : CmdWord) :
    w &&& 0xFF00C00F = 4 ↔ opField w = 4 ∧ zeroHiField w = 0 ∧ zeroLoField w = 0 := by
  have hmask : (0xFF00C00F : CmdWord) = 0xF ||| 0xFF000000 ||| 0x0000C000 := by decide
  rw [← and_opMask_eq_iff, ← and_zeroHiMask_eq_zero_iff, ← and_zeroLoMask_eq_zero_iff]
  constructor
  · intro h
    have hsub (m : CmdWord) (hm : 0xFF00C00F &&& m = m) : w &&& m = 4 &&& m := by
      rw [← h, BitVec.and_assoc, hm]
    exact ⟨hsub 0xF (by decide), hsub 0xFF000000 (by decide), hsub 0x0000C000 (by decide)⟩
  · rintro ⟨hop, hhi, hlo⟩
    rw [hmask, BitVec.and_or_distrib_left, BitVec.and_or_distrib_left, hop, hhi, hlo]
    decide

/-! ## The opcode map -/

/-- The words that the decoder rejects, by their fields (R84, R86). -/
theorem decode_error_iff (w : CmdWord) :
    (∃ r, decode w = .error r) ↔
      (opField w = 0 ∨ 5 ≤ (opField w).toNat) ∨
      (opField w = 1 ∧ lenField w ≠ 0) ∨
      (opField w = 4 ∧ (zeroHiField w ≠ 0 ∨ zeroLoField w ≠ 0)) := by
  unfold decode
  split
  · split <;> simp [*]
  split
  · next h2 => simp [h2]
  split
  · next h3 => simp [h3]
  split
  · next h4 =>
    rw [← not_and_or]
    split <;> simp [*]
  · next h1 h2 h3 h4 =>
    simp only [Except.error.injEq, exists_eq', true_iff]
    left
    bv_omega

/-- Settles O4: each mask selects fields of the word, so a row is met exactly when the decoder takes
its branch. -/
theorem opcodeMapSelectsRow : Obligations.OpcodeMapSelectsRow := by
  unfold Obligations.OpcodeMapSelectsRow
  intro w
  have hinit : w &&& 0xF = 2 ↔ opField w = 2 := and_opMask_eq_iff w 2
  have hreseed : w &&& 0xF = 3 ↔ opField w = 3 := and_opMask_eq_iff w 3
  simp only [BitVec.setWidth_ushiftRight_eq_extractLsb, ne_eq]
  rw [and_nextMask_eq_iff, hinit, hreseed, and_seedwMask_eq_iff, decode_error_iff]
  refine ⟨?_, ?_, ?_, ?_, ?_⟩
  · rintro ⟨hop, hzero⟩
    simp [decode, hop, hzero]
  · intro hop
    exact decode_init (by rw [← opField_toNat, hop]; rfl)
  · intro hop
    exact decode_reseed (by rw [← opField_toNat, hop]; rfl)
  · rintro ⟨hop, hhi, hlo⟩
    exact decode_seedw (by rw [← opField_toNat, hop]; rfl) (by rw [← zeroHiField_toNat, hhi]; rfl)
      (by rw [← zeroLoField_toNat, hlo]; rfl)
  · intro hnext h2 h3 hseedw
    have hop : (opField w = 0 ∨ 5 ≤ (opField w).toNat) ∨ opField w = 1 ∨ opField w = 4 := by
      bv_omega
    rcases hop with hop | hop | hop
    · exact .inl hop
    · exact .inr (.inl ⟨hop, fun hzero => hnext ⟨hop, hzero⟩⟩)
    · exact .inr (.inr ⟨hop, not_and_or.1 fun hzero => hseedw ⟨hop, hzero⟩⟩)

theorem illegalWord_iff (w : CmdWord) : Spec.illegalWord w ↔ ∃ r, decode w = .error r := by
  have hop (k : BitVec 4) := and_opMask_eq_iff w k
  rw [decode_error_iff, Spec.illegalWord, ← hop 0, ← hop 1, ← hop 4, and_opMask_toNat, Ne,
    ushiftRight_eq_zero_iff, Ne, and_zeroHiMask_eq_zero_iff, Ne, and_zeroLoMask_eq_zero_iff]
  rfl

/-- Settles O5: R84's list says of the masked word what the decoder checks of its fields, and an
illegal word has a branch of `step` of its own. -/
theorem illegalWordsAreAnswered : Obligations.IllegalWordsAreAnswered := by
  unfold Obligations.IllegalWordsAreAnswered
  refine fun w => ⟨illegalWord_iff w, fun hw s rest hi => ?_⟩
  obtain ⟨r, hd⟩ := (illegalWord_iff w).1 hw
  exact step_of_illegal hi hd

/-- Settles O6: the decoder has four answers, and the encoder none for an internal operation. -/
theorem internalOperationsHaveNoWord : Obligations.InternalOperationsHaveNoWord := by
  unfold Obligations.InternalOperationsHaveNoWord
  refine ⟨fun w i hd => ?_, rfl, fun _ => rfl, rfl, rfl, rfl, rfl⟩
  rcases decode_cases hd with rfl | rfl | rfl | rfl <;> simp

/-- Settles O1, by running the decoder on the six words. -/
theorem specWordsDecode : Obligations.SpecWordsDecode := by
  unfold Obligations.SpecWordsDecode
  decide

/-! ## The status of a response -/

/-- Settles O11: of what a step on a command word can do, each case names the one response it adds. -/
theorem statusSaysWhatHappened : Obligations.StatusSaysWhatHappened := by
  unfold Obligations.StatusSaysWhatHappened
  refine ⟨rfl, rfl, rfl, fun st => by cases st <;> decide, fun s t w rest hi h => ?_⟩
  rcases command_cases hi h with ⟨_, hd, rfl⟩ | ⟨hd, hs, rfl⟩ | ⟨hd, hs, rfl⟩ |
    ⟨_, hd, rfl⟩ | ⟨_, hd, hs, rfl⟩ | ⟨_, hd, hs, rfl⟩ | ⟨_, _, hd, rfl⟩
  · exact ⟨_, rfl, by simp [hd], by simp [hd]⟩
  · exact ⟨_, rfl, by simp [hd], by simp [hd, hs]⟩
  · exact ⟨_, rfl, by simp [hd], by simp [hs]⟩
  · exact ⟨_, rfl, by simp [hd], by simp [hd]⟩
  · exact ⟨_, rfl, by simp [hd], by simp [hd, hs]⟩
  · exact ⟨_, rfl, by simp [hd], by simp [hs]⟩
  · exact ⟨_, rfl, by simp [hd], by simp [hd]⟩

/-! ## Pseudo-instructions: loading a seed -/

/-- The oldest of the issued commands is the one the next step takes. -/
theorem issue_cons {i : Instr} {w : CmdWord} (he : encode i = some w) (is : List Instr) :
    issue (i :: is) = .command w :: issue is := by
  simp [issue, he]

theorem issue_append (is js : List Instr) : issue (is ++ js) = issue is ++ issue js := by
  simp [issue]

/-- The step that takes an issued command runs it (R86, R91). -/
theorem step_of_issued {s : State} {i : Instr} {w : CmdWord} {is : List Instr} {rest : List Input}
    (hi : s.inputs = issue (i :: is) ++ rest) (he : encode i = some w) (hd : decode w = .ok i) :
    step s = exec i (s.withInputs (issue is ++ rest)) := by
  rw [issue_cons he, List.cons_append] at hi
  exact step_of_legal hi hd

theorem length_issue_seedWrites (pos : Nat) (bytes : List Byte) :
    (issue (seedWrites pos bytes)).length = bytes.length := by
  induction bytes generalizing pos with
  | nil => rfl
  | cons b bytes ih => rw [seedWrites, issue_cons rfl, List.length_cons, ih, List.length_cons]

/-- `S` after bytes are written one after another from position `pos` on. -/
def Memory.load (m : Memory) : Nat → List Byte → Memory
  | _, [] => m
  | pos, b :: rest => Memory.load (m.write (BitVec.ofNat 10 pos).toNat b) (pos + 1) rest

/-- Loading sets the bytes from `pos` on to those loaded and keeps every other. -/
theorem Memory.read_load {m : Memory} (h : m.wf = true) {pos : Nat} {bytes : List Byte}
    (hfit : pos + bytes.length ≤ Memory.size) (k : Nat) :
    (m.load pos bytes).read k =
      if k < pos then m.read k else bytes.getD (k - pos) (m.read k) := by
  induction bytes generalizing m pos with
  | nil => simp [Memory.load]
  | cons b bytes ih =>
    rw [List.length_cons] at hfit
    have haddr : (BitVec.ofNat 10 pos).toNat = pos := by
      rw [BitVec.toNat_ofNat, Nat.mod_eq_of_lt]
      unfold Memory.size at hfit
      omega
    rw [Memory.load, ih (Memory.wf_write b h (BitVec.isLt _)) (by omega), Memory.read_write h, haddr]
    rcases Nat.lt_trichotomy k pos with hlt | rfl | hgt
    · rw [if_pos hlt, if_pos (by omega), if_neg (by omega)]
    · simp
    · rw [if_neg (by omega), if_neg (by omega), if_neg (by omega),
        show k - pos = k - (pos + 1) + 1 by omega, List.getD_cons_succ]

/-- After `count` commands answered OK that left `m` in the seed buffer, with `rest` still to be
taken. -/
def State.loaded (s : State) (m : Memory) (count : Nat) (rest : List Input) : State :=
  { s with
    engine := { s.engine with S := m }
    inputs := rest
    responses := s.responses ++ List.replicate count ⟨.ok, 0⟩ }

/-- The state that one write of a seed leaves, loaded with the writes after it, is loaded with all. -/
theorem State.loaded_of_write (s : State) (addr : SeedAddr) (b : Byte) (m : Memory) (count : Nat)
    (inputs rest : List Input) :
    (((s.withInputs inputs).withEngine (s.engine.writeSeed addr b)).respond .ok 0).loaded m count rest =
      s.loaded m (count + 1) rest := by
  simp [State.loaded, List.replicate_succ]

/-- A run over the writes of a seed goes on from the state with the seed loaded (R140). -/
theorem run_seedWrites {s : State} {pos : Nat} {bytes : List Byte} {rest : List Input}
    (hi : s.inputs = issue (seedWrites pos bytes) ++ rest) (k : Nat) :
    run (bytes.length + k) s = run k (s.loaded (s.engine.S.load pos bytes) bytes.length rest) := by
  induction bytes generalizing s pos with
  | nil =>
    have hrest : s.inputs = rest := hi
    subst hrest
    simp [State.loaded, Memory.load]
  | cons b bytes ih =>
    have hstep := step_of_issued hi rfl ((Laws.RoundTrip.seedw (BitVec.ofNat 10 pos) b).1 _ rfl)
    rw [List.length_cons, Nat.add_right_comm, run_succ _ hstep, ih rfl]
    exact congrArg (run k) (State.loaded_of_write s _ b _ _ _ _)

theorem lenOperand_toNat (k : Nat) : (lenOperand k).toNat = min k (2 ^ 28 - 1) := by
  simp only [lenOperand, BitVec.toNat_ofNat]
  omega

/-- The largest length operand is above the clamp, so a seed too long for the field loses nothing. -/
theorem clampLen_lenOperand (k : Nat) : clampLen (lenOperand k).toNat = min k seedMaxBytes := by
  simp only [clampLen, lenOperand_toNat, seedMaxBytes]
  omega

/-- The effective seed of INITB is what it loads, whatever `S` held (R92, R141). -/
theorem effectiveSeed_load {m : Memory} (h : m.wf = true) (bytes : List Byte) :
    effectiveSeed (m.load 0 (bytes.take seedMaxBytes)) (lenOperand bytes.length) =
      bytes.take seedMaxBytes := by
  have hfit : 0 + (bytes.take seedMaxBytes).length ≤ Memory.size := by
    rw [Nat.zero_add]
    exact List.length_take_le ..
  rw [effectiveSeed, clampLen_lenOperand]
  refine List.ext_getElem (by simp [Nat.min_comm]) fun k hk hk' => ?_
  rw [List.getElem_map, List.getElem_range, Memory.read_load h hfit, if_neg (Nat.not_lt_zero k),
    Nat.sub_zero, List.getD_eq_getElem _ _ hk']

/-- Initialize reads the first 1024 bytes of a seed (R142). -/
theorem Engine.initialize_take (e : Engine) (seed : List Byte) :
    e.initialize (seed.take seedMaxBytes) = e.initialize seed := by
  have hfold (f : Engine) : f.fold (seed.take seedMaxBytes) = f.fold seed := by
    simp only [Engine.fold, foldSeed, List.take_take, Nat.min_self]
  rw [Engine.initialize, Engine.initialize, Engine.reseed, Engine.reseed, hfold]

/-- INIT over a loaded seed makes of the engine, but for `S`, what Initialize makes of the engine as it
stood before the loading (R148, R160). -/
theorem Engine.initialize_setSeeded_withS (e : Engine) (m : Memory) (seed : List Byte) :
    { (({ e with S := m } : Engine).initialize seed).setSeeded with S := e.S } =
      { e.initialize seed with seeded := true } := by
  obtain ⟨ha, hb, hc, hn, hM, hR, hX⟩ := Engine.initialize_eq { e with S := m } e seed
  exact Engine.ext_fields ha hb hc hn hM hR hX (e.initialize_S seed).symm rfl

/-- Settles O50: the writes leave the first 1024 bytes of the sequence as the effective seed of the INIT
that follows them, and Initialize reads no more than these of the sequence and nothing of `S`. -/
theorem initbIsInitialize : Obligations.InitbIsInitialize := by
  unfold Obligations.InitbIsInitialize
  intro s bytes rest hwf hi
  have hlen : (issue (Pseudo.initb bytes).expand).length = (bytes.take seedMaxBytes).length + 1 := by
    rw [Pseudo.expand, expandSeed, issue_append, List.length_append, length_issue_seedWrites]
    rfl
  have hload : s.inputs = issue (seedWrites 0 (bytes.take seedMaxBytes)) ++
      (issue [.init (lenOperand bytes.length)] ++ rest) := by
    rw [hi, Pseudo.expand, expandSeed, issue_append, List.append_assoc]
  have hinit := step_of_issued (s := s.loaded (s.engine.S.load 0 (bytes.take seedMaxBytes))
    (bytes.take seedMaxBytes).length (issue [.init (lenOperand bytes.length)] ++ rest)) rfl rfl
    ((Laws.RoundTrip.init (lenOperand bytes.length)).1 _ rfl)
  rw [hlen, run_seedWrites hload 1, run_succ 0 hinit, run_zero]
  refine ⟨_, rfl, ?_, rfl, ?_⟩
  · rw [State.respond_engine, State.withEngine_engine, State.withInputs_engine, State.loaded,
      effectiveSeed_load hwf, Engine.initialize_setSeeded_withS, Engine.initialize_take]
  · rw [State.respond_responses, State.withEngine_responses, State.withInputs_responses, State.loaded,
      List.append_assoc, List.replicate_succ']

end Sys2Proof.Machine
end

section
/-! SUPPORT. Word arithmetic: the index fields of a data word as shift and mask, and the partner index. -/

namespace Sys2Proof.Machine

/-! ## The index fields of a data word -/

/-- An index seen as a data word is the word that has its number. -/
theorem PoolIndex.setWidth_eq {p : PoolIndex} {x : W64} (h : p.toNat = x.toNat) : p.setWidth 64 = x := by
  apply BitVec.eq_of_toNat_eq
  rw [BitVec.toNat_setWidth_of_le (by decide), h]

theorem lowIndex_eq_shift_mask (x : W64) : (lowIndex x).setWidth 64 = (x >>> 3) &&& 255 :=
  PoolIndex.setWidth_eq (lowIndex_toNat x)

/-- Masking and then shifting is shifting and then masking with the shifted mask (R119). -/
theorem lowIndex_eq_mask_shift (x : W64) : (lowIndex x).setWidth 64 = (x &&& 0x7F8) >>> 3 := by
  rw [lowIndex_eq_shift_mask, BitVec.ushiftRight_and_distrib]
  rfl

theorem highIndex_eq_shift_mask (y : W64) : (highIndex y).setWidth 64 = (y >>> 11) &&& 255 :=
  PoolIndex.setWidth_eq (highIndex_toNat y)

/-! ## The partner index -/

/-- Adding and subtracting 128 are the same modulo 256, so both halves take the same sum (R121). -/
theorem partner_eq_add (i : PoolIndex) : partner i = i + 128 := by
  unfold partner
  split
  · rfl
  · exact BitVec.sub_eq_add_neg i 128#8

theorem partner_toNat (i : PoolIndex) :
    (partner i).toNat = if i.toNat < 128 then i.toNat + 128 else i.toNat - 128 := by
  rw [partner_eq_add]
  split <;> bv_omega

/-- Adding the top bit carries into no bit of the index, so it flips bit 7 and leaves the others. -/
theorem partner_eq_xor (i : PoolIndex) : partner i = i ^^^ 128 := by
  rw [partner_eq_add]
  ext k hk
  have hcarry : BitVec.carry k i 128 false = false := by
    have hlow : 128 % 2 ^ k = 0 := Nat.mod_eq_zero_of_dvd (Nat.pow_dvd_pow 2 (show k ≤ 7 by omega))
    simpa [BitVec.carry, hlow] using Nat.mod_lt i.toNat (Nat.two_pow_pos k)
  rw [BitVec.getElem_add, BitVec.getElem_xor, hcarry, Bool.xor_false]

theorem partner_ne (i : PoolIndex) : partner i ≠ i := by
  rw [partner_eq_add]
  bv_omega

/-- Settles O29: the fields are the shifted and masked words, and the partner is the index plus 128
modulo 256, whichever half it is in. -/
theorem indexFieldsAndPartner : Obligations.IndexFieldsAndPartner := by
  unfold Obligations.IndexFieldsAndPartner
  exact ⟨fun x => ⟨lowIndex_eq_shift_mask x, lowIndex_eq_mask_shift x⟩, highIndex_eq_shift_mask,
    fun i => ⟨partner_toNat i, partner_eq_xor i, partner_ne i⟩⟩

end Sys2Proof.Machine
end

section
/-! SUPPORT. The Seed Scrambler: MIX as its eight lines, and these as the 24 assignments of R133 on the
eight lanes of the scratch buffer. -/

namespace Sys2Proof

/-- A scratch buffer is its eight lanes. -/
theorem Scratch.eq_lanes (x : Scratch) : x = #v[x[0], x[1], x[2], x[3], x[4], x[5], x[6], x[7]] := by
  apply Scratch.ext_read
  intro j
  fin_cases j <;> rfl

namespace Machine

/-- MIX is its eight lines, one after another (R132). -/
theorem scramble_eq_lines (x : Scratch) : scramble x =
    mixLine 7 (mixLine 6 (mixLine 5 (mixLine 4 (mixLine 3 (mixLine 2 (mixLine 1 (mixLine 0 x))))))) := by
  simp only [scramble, forUpTo_succ, forUpTo_zero]
  rfl

/-- On lanes that are written out, each read and write of a line meets a lane by its number, and what is
left of the eight lines is the 24 assignments (R133). -/
theorem scramble_lanes (x0 x1 x2 x3 x4 x5 x6 x7 : W64) :
    scramble #v[x0, x1, x2, x3, x4, x5, x6, x7] =
      Spec.mix24 #v[x0, x1, x2, x3, x4, x5, x6, x7] := by
  rw [scramble_eq_lines]
  simp [mixLine, mixShifted, mixShift, Scratch.read, Scratch.write, Spec.mix24]

/-- MIX is the 24 assignments of the unrolled form (R133). -/
theorem scramble_eq_mix24 (x : Scratch) : scramble x = Spec.mix24 x := by
  rw [Scratch.eq_lanes x]
  exact scramble_lanes ..

/-- Settles O18: MIX replaces `X` by its scrambled form, which is the 24 assignments. -/
theorem mixIsTwentyFourAssignments : Obligations.MixIsTwentyFourAssignments := by
  unfold Obligations.MixIsTwentyFourAssignments
  intro s
  rw [exec, execMix, State.withEngine, Engine.mix, scramble_eq_mix24]

/-- Of eight zero words each of the 24 assignments makes a zero word (R135). -/
theorem mix24_zero : Spec.mix24 (Vector.replicate 8 0) = Vector.replicate 8 0 := by
  decide

/-- Settles O19: MIX is the 24 assignments on `X` alone, and these leave eight zero words as they are. -/
theorem mixKeepsZeroBuffer : Obligations.MixKeepsZeroBuffer := by
  unfold Obligations.MixKeepsZeroBuffer
  intro s hX
  rw [mixIsTwentyFourAssignments s, hX, mix24_zero, ← hX]

end Machine

end Sys2Proof
end

section
/-! SUPPORT. Initialization and reseeding: the commands and internal operations of 42_init_reseed as next
states, SEEDW on the seed buffer, what FOLD makes of each word of `R`, the derivation passes block by block,
and Reseed and Initialize as functions of what they read. -/

namespace Sys2Proof.Machine

/-! ## The instructions as next states -/

theorem exec_seedw (addr : SeedAddr) (byte : Byte) (s : State) :
    exec (.seedw addr byte) s =
      .next ((s.withEngine (s.engine.writeSeed addr byte)).respond .ok 0) := rfl

theorem exec_fold (len : SeedLen) (s : State) :
    exec (.fold len) s = .next (s.withEngine (s.engine.fold (effectiveSeed s.engine.S len))) := rfl

theorem exec_premix (s : State) : exec .premix s = .next (s.withEngine s.engine.premix) := rfl

theorem exec_derive1 (s : State) : exec .derive1 s = .next (s.withEngine s.engine.derive1) := rfl

theorem exec_derive2 (s : State) : exec .derive2 s = .next (s.withEngine s.engine.derive2) := rfl

theorem exec_update (s : State) : exec .update s = .next (s.withEngine s.engine.update) := rfl

theorem exec_init (len : SeedLen) (s : State) :
    exec (.init len) s = .next ((s.withEngine
      (s.engine.initialize (effectiveSeed s.engine.S len)).setSeeded).respond .ok 0) := rfl

theorem exec_reseed_of_seeded {s : State} (hs : s.engine.seeded = true) (len : SeedLen) :
    exec (.reseed len) s =
      .next ((s.withEngine (s.engine.reseed (effectiveSeed s.engine.S len))).respond .ok 0) := by
  rw [exec, execReseed, State.ifSeeded_seeded _ hs]

theorem exec_reseed_of_unseeded {s : State} (hs : s.engine.seeded = false) (len : SeedLen) :
    exec (.reseed len) s = .next (s.refuse .errNotSeeded) := by
  rw [exec, execReseed, State.ifSeeded_unseeded _ hs]

/-! ## SEEDW -/

/-- A later write to an address leaves no trace of an earlier one (R58). -/
theorem Memory.write_write {m : Memory} (h : m.wf = true) {a : Nat} (ha : a < Memory.size)
    (b1 b2 : Byte) : (m.write a b1).write a b2 = m.write a b2 := by
  have h1 : (m.write a b1).wf = true := Memory.wf_write b1 h ha
  refine Memory.ext_read (Memory.wf_write b2 h1 ha) (Memory.wf_write b2 h ha) fun k => ?_
  rw [Memory.read_write h1, Memory.read_write h, Memory.read_write h]
  split <;> rfl

theorem Engine.writeSeed_writeSeed {e : Engine} (h : e.S.wf = true) (addr : SeedAddr)
    (b1 b2 : Byte) : (e.writeSeed addr b1).writeSeed addr b2 = e.writeSeed addr b2 := by
  simp only [Engine.writeSeed, Memory.write_write h addr.isLt]

/-- Settles O16: SEEDW is one write to `S`, inside its bounds because the address field has ten bits. -/
theorem seedwWritesOneByte : Obligations.SeedwWritesOneByte := by
  unfold Obligations.SeedwWritesOneByte
  intro s addr byte hwf
  exact ⟨s.engine.S.write addr.toNat byte, exec_seedw addr byte s,
    Memory.wf_write byte hwf addr.isLt, fun k => Memory.read_write hwf k addr.toNat byte⟩

/-- Settles O17: two writes to one address are the second alone. -/
theorem seedwKeepsLaterByte : Obligations.SeedwKeepsLaterByte := by
  unfold Obligations.SeedwKeepsLaterByte
  intro s t u v addr b1 b2 hwf ht hu hv
  rw [exec_seedw] at ht hu hv
  cases ht
  cases hu
  cases hv
  exact Engine.writeSeed_writeSeed hwf addr b1 b2

/-! ## PREMIX -/

/-- The constant of PREMIX is four times the 24 assignments on the golden word in every lane (R144). -/
theorem premixed_eq_mix24 : premixed =
    Spec.mix24 (Spec.mix24 (Spec.mix24 (Spec.mix24 (Vector.replicate 8 0x9E3779B97F4A7C13#64)))) := by
  simp only [premixed, premixRounds, forUpTo_succ, forUpTo_zero, scramble_eq_mix24, Scratch.fill, golden]

/-- Settles O20: the table is computed, and PREMIX puts the constant into `X` whatever the state. -/
theorem premixLeavesTheConstant : Obligations.PremixLeavesTheConstant := by
  unfold Obligations.PremixLeavesTheConstant
  refine ⟨by decide, fun s => ?_⟩
  rw [exec_premix, ← premixed_eq_mix24]
  rfl

/-! ## FOLD: a group of seed bytes as a word -/

/-- A word of seed bytes is its first byte and, above it, the word of the bytes that follow (R53). -/
theorem seedWord_succ (byteAt : Nat → Byte) (at0 count : Nat) :
    Spec.seedWord byteAt at0 (count + 1) =
      (byteAt at0).setWidth 64 + Spec.seedWord byteAt (at0 + 1) count <<< 8 := by
  have hterm (j : Nat) : (byteAt (at0 + (j + 1))).toNat * 2 ^ (8 * (j + 1)) =
      (byteAt (at0 + 1 + j)).toNat * 2 ^ (8 * j) * 2 ^ 8 := by
    rw [show 8 * (j + 1) = 8 * j + 8 by omega, pow_add, mul_assoc, Nat.add_right_comm at0 1 j, Nat.add_assoc]
  simp only [Spec.seedWord, List.range_succ_eq_map, List.map_cons, List.map_map, List.sum_cons,
    Function.comp_def, Nat.succ_eq_add_one, hterm, List.sum_map_mul_right]
  apply BitVec.eq_of_toNat_eq
  simp [Nat.shiftLeft_eq]

/-- The model's assembly of bytes is the spec's sum over them (R53, R54). -/
theorem littleEndian_eq_seedWord {byteAt : Nat → Byte} {bytes : List Byte} {at0 : Nat}
    (h : ∀ j < bytes.length, bytes.getD j 0 = byteAt (at0 + j)) :
    littleEndian bytes = Spec.seedWord byteAt at0 bytes.length := by
  induction bytes generalizing at0 with
  | nil => rfl
  | cons b bytes ih =>
    have hb : b = byteAt at0 := h 0 (Nat.succ_pos _)
    have htail : ∀ j < bytes.length, bytes.getD j 0 = byteAt (at0 + 1 + j) := fun j hj => by
      rw [Nat.add_right_comm]
      exact h (j + 1) (Nat.succ_lt_succ hj)
    rw [littleEndian, ih htail, List.length_cons, seedWord_succ, hb]

/-- Missing high bytes are zero (R54). -/
theorem littleEndian_replicate_zero (k : Nat) : littleEndian (List.replicate k 0) = 0 := by
  induction k with
  | zero => rfl
  | succ k ih => rw [List.replicate_succ, littleEndian, ih]; rfl

theorem littleEndian_append_zeros (bytes : List Byte) (k : Nat) :
    littleEndian (bytes ++ List.replicate k 0) = littleEndian bytes := by
  induction bytes with
  | nil => exact littleEndian_replicate_zero k
  | cons b bytes ih => rw [List.cons_append, littleEndian, littleEndian, ih]

theorem seedGroup_length (seed : List Byte) (g : Nat) :
    (seedGroup seed g).length = min 8 (seed.length - 8 * g) := by
  rw [seedGroup, List.length_take, List.length_drop]

/-- Group `g` of a seed holds the seed's bytes from `8g` on. -/
theorem seedGroup_getD (seed : List Byte) {g j : Nat} (hj : j < 8) :
    (seedGroup seed g).getD j 0 = seed.getD (8 * g + j) 0 := by
  simp [seedGroup, List.getD_eq_getElem?_getD, hj]

/-- A seed has no byte in a group that begins at or beyond its end. -/
theorem seedGroup_eq_nil {seed : List Byte} {g : Nat} (h : seed.length ≤ 8 * g) :
    seedGroup seed g = [] := by
  rw [seedGroup, List.drop_eq_nil_of_le h, List.take_nil]

/-! ## FOLD: every word of `R` -/

theorem foldGroups_read (seed : List Byte) (R : Bank) {n : Nat} (hn : n ≤ 256) (i : PoolIndex) :
    Bank.read (forUpTo (foldGroup seed) n R) i =
      if i.toNat < n then Bank.read R i ^^^ littleEndian (seedGroup seed i.toNat)
      else Bank.read R i := by
  induction n with
  | zero => rw [forUpTo_zero, if_neg (Nat.not_lt_zero _)]
  | succ n ih =>
    have hindex : i = BitVec.ofNat 8 n ↔ i.toNat = n := by
      rw [← BitVec.toNat_inj, BitVec.toNat_ofNat, Nat.mod_eq_of_lt (by omega)]
    rw [forUpTo_succ, foldGroup, Bank.read_write]
    by_cases hi : i.toNat = n
    · rw [if_pos (hindex.2 hi), ← hindex.2 hi, ih (by omega), if_neg (by omega), if_pos (by omega), hi]
    · rw [if_neg (hindex.not.2 hi), ih (by omega)]
      exact if_congr (by omega) rfl rfl

/-- FOLD is so many passes over the groups, ascending, that none is left out: the partial group, if there is
one, is the last. -/
theorem foldSeed_eq_groups (seed : List Byte) (R : Bank) :
    ∃ n ≤ 256, (seed.take seedMaxBytes).length ≤ 8 * n ∧
      foldSeed seed R = forUpTo (foldGroup (seed.take seedMaxBytes)) n R := by
  have hlen : (seed.take seedMaxBytes).length ≤ 1024 := List.length_take_le ..
  simp only [foldSeed]
  split
  · exact ⟨_, by omega, by omega, rfl⟩
  · exact ⟨_ + 1, by omega, by omega, (forUpTo_succ ..).symm⟩

/-- FOLD exclusive-ors into every word of `R` the group of its index in the clamped seed; beyond the seed's
end the group is empty and its word is 0 (R142, R143). -/
theorem foldSeed_read (seed : List Byte) (R : Bank) (i : PoolIndex) :
    Bank.read (foldSeed seed R) i =
      Bank.read R i ^^^ littleEndian (seedGroup (seed.take seedMaxBytes) i.toNat) := by
  obtain ⟨n, hn, hlen, hfold⟩ := foldSeed_eq_groups seed R
  rw [hfold, foldGroups_read _ _ hn]
  split
  · rfl
  · rw [seedGroup_eq_nil (by omega), littleEndian]
    exact BitVec.xor_zero.symm

/-- The three cases of the spec's word are one: the group at `8i` has eight bytes, or those that remain, or
none. -/
theorem foldedWord_eq (byteAt : Nat → Byte) (L i : Nat) (old : W64) :
    Spec.foldedWord byteAt L i old =
      old ^^^ Spec.seedWord byteAt (8 * i) (min 8 (min L 1024 - 8 * i)) := by
  have hnone : Spec.seedWord byteAt (8 * i) 0 = 0 := rfl
  simp only [Spec.foldedWord]
  split
  · rw [show min 8 (min L 1024 - 8 * i) = 8 by omega]
  split
  · next hpart =>
    rw [← hpart.1, show min 8 (min L 1024 - 8 * i) = min L 1024 % 8 by omega]
  · rw [show min 8 (min L 1024 - 8 * i) = 0 by omega, hnone]
    exact BitVec.xor_zero.symm

/-- FOLD makes of every word of `R` the spec's word of the bytes it is given, whatever holds them. -/
theorem foldSeed_read_eq_foldedWord {seed : List Byte} {byteAt : Nat → Byte} {L : Nat}
    (hL : min L 1024 = min seed.length 1024)
    (hbytes : ∀ k < min L 1024, seed.getD k 0 = byteAt k) (R : Bank) (i : PoolIndex) :
    Bank.read (foldSeed seed R) i = Spec.foldedWord byteAt L i.toNat (Bank.read R i) := by
  have hlen : (seedGroup (seed.take seedMaxBytes) i.toNat).length =
      min 8 (min L 1024 - 8 * i.toNat) := by
    rw [seedGroup_length, List.length_take, hL, seedMaxBytes, Nat.min_comm 1024]
  have hgroup : ∀ j < (seedGroup (seed.take seedMaxBytes) i.toNat).length,
      (seedGroup (seed.take seedMaxBytes) i.toNat).getD j 0 = byteAt (8 * i.toNat + j) := by
    intro j hj
    rw [hlen] at hj
    rw [seedGroup_getD _ (by omega), ← hbytes _ (by omega), List.getD_eq_getElem?_getD,
      List.getElem?_take_of_lt (by unfold seedMaxBytes; omega), List.getD_eq_getElem?_getD]
  rw [foldSeed_read, foldedWord_eq, littleEndian_eq_seedWord hgroup, hlen]

/-- Settles O21: the bytes of the sequence are those that the spec's word reads. -/
theorem foldXorsSeedGroups : Obligations.FoldXorsSeedGroups := by
  unfold Obligations.FoldXorsSeedGroups
  exact fun seed R i => foldSeed_read_eq_foldedWord rfl (fun _ _ => rfl) R i

theorem effectiveSeed_length (S : Memory) (len : SeedLen) :
    (effectiveSeed S len).length = min len.toNat 1024 := by
  rw [effectiveSeed, List.length_map, List.length_range, clampLen, seedMaxBytes]

theorem effectiveSeed_getD (S : Memory) (len : SeedLen) {k : Nat} (hk : k < min len.toNat 1024) :
    (effectiveSeed S len).getD k 0 = S.read k := by
  rw [List.getD_eq_getElem _ _ (by rw [effectiveSeed_length]; exact hk)]
  simp [effectiveSeed]

/-- A seed ends at or before group 128, so FOLD leaves the words from there on (R143). -/
theorem foldedWord_high (byteAt : Nat → Byte) (L : Nat) {i : Nat} (hi : 128 ≤ i) (old : W64) :
    Spec.foldedWord byteAt L i old = old := by
  rw [foldedWord_eq, show min 8 (min L 1024 - 8 * i) = 0 by omega]
  exact BitVec.xor_zero

/-- Settles O22: the effective seed is the bytes of `S` below the clamped length, and FOLD writes `R` only. -/
theorem foldReadsEffectiveSeed : Obligations.FoldReadsEffectiveSeed := by
  unfold Obligations.FoldReadsEffectiveSeed
  intro s len
  have hword := foldSeed_read_eq_foldedWord (L := len.toNat)
    (by rw [effectiveSeed_length]; omega)
    (fun _ hk => effectiveSeed_getD s.engine.S len hk) s.engine.R
  exact ⟨foldSeed (effectiveSeed s.engine.S len) s.engine.R, exec_fold len s, hword,
    fun i hi => (hword i).trans (foldedWord_high _ _ hi _)⟩

/-! ## Seeds that fold alike -/

/-- Reseed takes from the seed only what FOLD takes from it (R147). -/
theorem Engine.reseed_congr_seed {seed seed' : List Byte}
    (h : ∀ R : Bank, foldSeed seed R = foldSeed seed' R) (e : Engine) :
    e.reseed seed = e.reseed seed' := by
  rw [Engine.reseed, Engine.reseed, Engine.fold, Engine.fold, h]

theorem Engine.initialize_congr_seed {seed seed' : List Byte}
    (h : ∀ R : Bank, foldSeed seed R = foldSeed seed' R) (e : Engine) :
    e.initialize seed = e.initialize seed' := by
  rw [Engine.initialize, Engine.initialize, Engine.reseed_congr_seed h]

/-- A group of a seed with zero bytes appended is that group with zero bytes appended. -/
theorem seedGroup_take_append_zeros (seed : List Byte) (k m g : Nat) :
    ∃ k', seedGroup ((seed ++ List.replicate k 0).take m) g =
      seedGroup (seed.take m) g ++ List.replicate k' 0 := by
  rw [seedGroup, List.take_append, List.take_replicate, List.drop_append, List.drop_replicate,
    List.take_append, List.take_replicate]
  exact ⟨_, rfl⟩

theorem foldSeed_append_zeros (seed : List Byte) (k : Nat) (R : Bank) :
    foldSeed (seed ++ List.replicate k 0) R = foldSeed seed R := by
  refine Bank.ext_read fun i => ?_
  obtain ⟨k', hgroup⟩ := seedGroup_take_append_zeros seed k seedMaxBytes i.toNat
  rw [foldSeed_read, foldSeed_read, hgroup, littleEndian_append_zeros]

/-- Settles O23: zero bytes at the end of a group add nothing to its word, so the two seeds fold alike. -/
theorem trailingZeroBytesDoNotMatter : Obligations.TrailingZeroBytesDoNotMatter := by
  unfold Obligations.TrailingZeroBytesDoNotMatter
  exact fun e seed k => ⟨e.initialize_congr_seed (foldSeed_append_zeros seed k),
    e.reseed_congr_seed (foldSeed_append_zeros seed k)⟩

/-- A data word is its low byte and, above it, the word without that byte. -/
theorem lowByte_add_shiftLeft (v : W64) :
    (v.extractLsb' 0 8).setWidth 64 + (v >>> 8) <<< 8 = v := by
  apply BitVec.eq_of_toNat_eq
  simp only [BitVec.toNat_add, BitVec.toNat_setWidth, BitVec.extractLsb'_toNat, BitVec.toNat_shiftLeft,
    BitVec.toNat_ushiftRight, Nat.shiftLeft_eq, Nat.shiftRight_eq_div_pow]
  omega

/-- The first bytes of a word, least significant first, are assembled to the word again when nothing is set
above them (R158). -/
theorem littleEndian_bytes {n : Nat} {v : W64} (h : v.toNat < 2 ^ (8 * n)) :
    littleEndian ((List.range n).map fun j => v.extractLsb' (8 * j) 8) = v := by
  induction n generalizing v with
  | zero => exact (BitVec.eq_of_toNat_eq (Nat.lt_one_iff.1 h)).symm
  | succ n ih =>
    have hrest : (v >>> 8).toNat < 2 ^ (8 * n) := by
      rw [BitVec.toNat_ushiftRight, Nat.shiftRight_eq_div_pow, Nat.div_lt_iff_lt_mul (by decide), ← pow_add]
      exact h
    have hbyte (j : Nat) : v.extractLsb' (8 * (j + 1)) 8 = (v >>> 8).extractLsb' (8 * j) 8 := by
      ext i hi
      simp [show 8 * (j + 1) + i = 8 + (8 * j + i) by omega]
    simp only [List.range_succ_eq_map, List.map_cons, List.map_map, Function.comp_def,
      Nat.succ_eq_add_one, hbyte, littleEndian, ih hrest]
    exact lowByte_add_shiftLeft v

theorem integerSeed_length (v : W64) : (integerSeed v).length = 8 := by
  simp [integerSeed]

/-- Group 0 of an integer seed is the whole seed, and every other group is empty. -/
theorem littleEndian_seedGroup_integerSeed (v : W64) (g : Nat) :
    littleEndian (seedGroup (integerSeed v) g) = if g = 0 then v else 0 := by
  split
  · next hg =>
    rw [hg, seedGroup, Nat.mul_zero, List.drop_zero, List.take_of_length_le (integerSeed_length v).le]
    exact littleEndian_bytes (n := 8) v.isLt
  · next hg =>
    rw [seedGroup_eq_nil (by rw [integerSeed_length]; omega), littleEndian]

/-- Settles O51: both expansions write the same eight bytes and give the same length, and into a zero `R`
FOLD puts the words of the seed's groups. -/
theorem integerSeedIsLittleEndian : Obligations.IntegerSeedIsLittleEndian := by
  unfold Obligations.IntegerSeedIsLittleEndian
  refine fun v => ⟨rfl, fun i => ?_⟩
  have htake : (integerSeed v).take seedMaxBytes = integerSeed v :=
    List.take_of_length_le (by simp [integerSeed_length, seedMaxBytes])
  have hindex : i = 0 ↔ i.toNat = 0 := BitVec.toNat_inj.symm
  rw [foldSeed_read, Bank.read_zero, htake, littleEndian_seedGroup_integerSeed]
  simp only [hindex]
  exact BitVec.zero_xor

/-! ## DERIVE1 and DERIVE2 -/

/-- One block of a pass is the addition lane by lane and the 24 assignments (R145). -/
theorem scramble_addBlock {src : Bank} {k : Nat} {words : Nat → W64}
    (h : ∀ j : Fin 8, Bank.read src (blockIndex k j) = words (8 * k + j)) (x : Scratch) :
    scramble (addBlock src k x) =
      Spec.mix24 (Vector.ofFn fun j : Fin 8 => x[j] + words (8 * k + j)) := by
  rw [scramble_eq_mix24]
  refine congrArg Spec.mix24 (Scratch.ext_read fun j => ?_)
  rw [addBlock_read, h]
  simp [Scratch.read]

/-- What a derivation pass that started from `e`, and whose sums are taken from `words`, has made of the
engine when `n` blocks are done: `X` is carried up to there, the blocks below `n` are written and the others
are still as they were (R145, R146). -/
structure Engine.PassReached (e : Engine) (words : Nat → W64) (n : Nat) (f : Engine) : Prop where
  X : f.X = Spec.passScratch words e.X n
  R : f.R = e.R
  written : ∀ k < n, ∀ j : Fin 8,
    Bank.read f.M (blockIndex k j) = (Spec.passScratch words e.X (k + 1))[j]
  unwritten : ∀ k < 32, n ≤ k → ∀ j : Fin 8,
    Bank.read f.M (blockIndex k j) = Bank.read e.M (blockIndex k j)

theorem Engine.PassReached.start (e : Engine) (words : Nat → W64) : e.PassReached words 0 e :=
  ⟨rfl, rfl, fun k hk => absurd hk (Nat.not_lt_zero k), fun _ _ _ _ => rfl⟩

/-- One more block, whose sums are taken from `words` as `src` holds them. -/
theorem Engine.PassReached.deriveBlock {e f : Engine} {words : Nat → W64} {n : Nat}
    (h : e.PassReached words n f) (hn : n < 32) {src : Bank}
    (hsrc : ∀ j : Fin 8, Bank.read src (blockIndex n j) = words (8 * n + j)) :
    e.PassReached words (n + 1) (f.deriveBlock src n) := by
  have hX : (f.deriveBlock src n).X = Spec.passScratch words e.X (n + 1) := by
    rw [Engine.deriveBlock_X, scramble_addBlock hsrc, h.X, Spec.passScratch]
  refine ⟨hX, h.R, fun k hk j => ?_, fun k hk hle j => ?_⟩
  · by_cases hkn : k = n
    · rw [hkn, Engine.deriveBlock_read_block src hn, hX]
      rfl
    · rw [Engine.deriveBlock_M, copyBlock_read_block _ hn (by omega), if_neg hkn]
      exact h.written k (by omega) j
  · rw [Engine.deriveBlock_M, copyBlock_read_block _ hn hk, if_neg (by omega)]
    exact h.unwritten k hk (by omega) j

/-- DERIVE1 takes its sums from `R`, which the pass leaves. -/
theorem Engine.derive1_passReached (e : Engine) :
    e.PassReached (fun j => Bank.read e.R (BitVec.ofNat 8 j)) 32 e.derive1 :=
  forUpTo_induct (P := e.PassReached _) (.start e _) fun _ _ hk h =>
    h.deriveBlock hk fun _ => by rw [h.R, blockIndex]

/-- DERIVE2 takes its sums from `M`, of which the block it reads is not written yet. -/
theorem Engine.derive2_passReached (e : Engine) :
    e.PassReached (fun j => Bank.read e.M (BitVec.ofNat 8 j)) 32 e.derive2 :=
  forUpTo_induct (P := e.PassReached _) (.start e _) fun k _ hk h =>
    h.deriveBlock hk fun j => h.unwritten k hk (Nat.le_refl k) j

/-- A pass that ran all its blocks, and left the rest of the engine, is what the two statements ask for. -/
theorem Engine.PassReached.pool {s : State} {f : Engine} {words : Nat → W64}
    (h : s.engine.PassReached words 32 f) (hframe : s.engine.SameButPool f) :
    ∃ M' : Bank,
      s.withEngine f = { s with engine := { s.engine with
        M := M'
        X := Spec.passScratch words s.engine.X 32 } } ∧
      ∀ k < 32, ∀ j : Fin 8, Bank.read M' (BitVec.ofNat 8 (8 * k + j)) =
        (Spec.passScratch words s.engine.X (k + 1))[j] :=
  ⟨f.M, congrArg s.withEngine (Engine.ext_fields hframe.a hframe.b hframe.c hframe.n rfl hframe.R h.X
    hframe.S hframe.seeded), h.written⟩

/-- Settles O24: when all 32 blocks are done every word of `M` is written, with sums from the `R` that the
pass leaves as it was. -/
theorem derive1BuildsPoolFromResults : Obligations.Derive1BuildsPoolFromResults := by
  unfold Obligations.Derive1BuildsPoolFromResults
  intro s
  obtain ⟨M', hnext, hM⟩ := s.engine.derive1_passReached.pool s.engine.derive1_frame
  exact ⟨M', (exec_derive1 s).trans (congrArg _ hnext), hM⟩

/-- Settles O25: each block is read while it still holds the old words of `M`. -/
theorem derive2ReadsBlocksBeforeOverwriting : Obligations.Derive2ReadsBlocksBeforeOverwriting := by
  unfold Obligations.Derive2ReadsBlocksBeforeOverwriting
  intro s
  obtain ⟨M', hnext, hM⟩ := s.engine.derive2_passReached.pool s.engine.derive2_frame
  exact ⟨M', (exec_derive2 s).trans (congrArg _ hnext), hM⟩

/-! ## INIT and RESEED: the sequence -/

/-- A format L word is the length above the opcode (R81). -/
theorem lenWord_eq_append (len : SeedLen) (op : BitVec 4) :
    (len.setWidth 32 <<< 4) ||| op.setWidth 32 = len ++ op := by
  rw [BitVec.append_def, BitVec.shiftLeftZeroExtend_eq, BitVec.setWidth'_eq]

/-- The five operations complete one after another, and together they are Reseed of the effective seed
(R147). -/
theorem exec_sequence (s : State) (len : SeedLen) : ∃ s1 s2 s3 s4 : State,
    exec (.fold len) s = .next s1 ∧ exec .premix s1 = .next s2 ∧ exec .derive1 s2 = .next s3 ∧
    exec .derive2 s3 = .next s4 ∧ exec .update s4 =
      .next (s.withEngine (s.engine.reseed (effectiveSeed s.engine.S len))) :=
  ⟨_, _, _, _, exec_fold len s, exec_premix _, exec_derive1 _, exec_derive2 _, exec_update _⟩

/-- Settles O30: RESEED on a seeded engine is the sequence from the state it finds. -/
theorem reseedRunsTheSequence : Obligations.ReseedRunsTheSequence := by
  unfold Obligations.ReseedRunsTheSequence
  refine fun s len => ⟨congrArg some (lenWord_eq_append len 3),
    fun hs => exec_reseed_of_unseeded hs len, fun hs => ?_⟩
  obtain ⟨s1, s2, s3, s4, hfold, hpremix, hderive1, hderive2, hupdate⟩ := exec_sequence s len
  obtain ⟨hc, hn, hS, hseeded, _⟩ := s.engine.reseed_rest (effectiveSeed s.engine.S len)
  exact ⟨s1, s2, s3, s4, _, hfold, hpremix, hderive1, hderive2, hupdate, exec_reseed_of_seeded hs len,
    hc, hn, hseeded.trans hs, hS, rfl, rfl⟩

/-- Settles O31: INIT is the sequence from the state with `a`, `b`, `c` and `R` cleared, whose effective seed
is the same. -/
theorem initRunsTheSequence : Obligations.InitRunsTheSequence := by
  unfold Obligations.InitRunsTheSequence
  intro s len
  obtain ⟨s1, s2, s3, s4, hfold, hpremix, hderive1, hderive2, hupdate⟩ :=
    exec_sequence (s.withEngine s.engine.clear) len
  obtain ⟨hc, hn, hS, _, _⟩ := s.engine.initialize_rest (effectiveSeed s.engine.S len)
  exact ⟨s1, s2, s3, s4, _, hfold, hpremix, hderive1, hderive2, hupdate, exec_init len s,
    hc, hn, hS, rfl, rfl, congrArg some (lenWord_eq_append len 2)⟩

/-! ## Reseed and Initialize as functions of what they read -/

/-- Reseed is a function of `a`, `b`, `c`, `R` and the seed, and leaves `seeded` (R151). -/
theorem Engine.reseed_sameGenerator {e f : Engine} (hs : e.seeded = f.seeded) (ha : e.a = f.a)
    (hb : e.b = f.b) (hc : e.c = f.c) (hR : e.R = f.R) (seed : List Byte) :
    Spec.sameGenerator (e.reseed seed) (f.reseed seed) ∧
      (e.reseed seed).X = (f.reseed seed).X := by
  obtain ⟨ha', hb', hc', hn', hM', hR', hX'⟩ := Engine.reseed_eq seed ha hb hc hR
  exact ⟨⟨ha', hb', hc', hn', hM', hR', by rw [reseed_seeded, reseed_seeded, hs]⟩, hX'⟩

/-- Settles O35: Initialize clears all that Reseed reads of the engine. -/
theorem reseedIgnoresOldPool : Obligations.ReseedIgnoresOldPool := by
  unfold Obligations.ReseedIgnoresOldPool
  refine fun e f seed hs => ⟨fun ha hb hc hR => Engine.reseed_sameGenerator hs ha hb hc hR seed, ?_⟩
  rw [Engine.initialize, Engine.initialize]
  exact Engine.reseed_sameGenerator (by simp [hs]) (by simp) (by simp) (by simp) (by simp) seed

/-- FOLD reads the first 1024 bytes of a seed (R142). -/
theorem foldSeed_take (seed : List Byte) (R : Bank) :
    foldSeed (seed.take seedMaxBytes) R = foldSeed seed R := by
  simp only [foldSeed, List.take_take, Nat.min_self]

/-- Every length of 1024 or more has the effective seed of 1024 (R82, R141). -/
theorem effectiveSeed_of_le (S : Memory) {len : SeedLen} (h : 1024 ≤ len.toNat) :
    effectiveSeed S len = effectiveSeed S 1024 :=
  effectiveSeed_congr (Nat.min_eq_right h) fun _ _ => rfl

/-- Settles O37: FOLD clamps the byte sequence, and the length operand says no more than the effective seed
does. -/
theorem oversizeLengthIsTruncated : Obligations.OversizeLengthIsTruncated := by
  unfold Obligations.OversizeLengthIsTruncated
  refine ⟨fun e seed => ⟨(e.initialize_take seed).symm,
    e.reseed_congr_seed fun R => (foldSeed_take seed R).symm⟩, fun s len hlen => ?_⟩
  have hseed := effectiveSeed_of_le s.engine.S hlen
  refine ⟨by rw [exec_init, exec_init, hseed], ?_, ⟨_, exec_init len s⟩,
    fun hs => ⟨_, exec_reseed_of_seeded hs len⟩⟩
  cases hs : s.engine.seeded with
  | true => rw [exec_reseed_of_seeded hs, exec_reseed_of_seeded hs, hseed]
  | false => rw [exec_reseed_of_unseeded hs, exec_reseed_of_unseeded hs]

/-! ## The seed buffer beyond the length -/

/-- The machine with another seed buffer. -/
def State.withSeedBuffer (s : State) (m : Memory) : State := s.withEngine { s.engine with S := m }

/-- Reseed of a given seed neither reads nor writes `S` (R37). -/
theorem Engine.reseed_withS (e : Engine) (m : Memory) (seed : List Byte) :
    ({ e with S := m } : Engine).reseed seed = { e.reseed seed with S := m } := by
  obtain ⟨ha, hb, hc, hn, hM, hR, hX⟩ :=
    Engine.reseed_eq (e := { e with S := m }) (f := e) seed rfl rfl rfl rfl
  exact Engine.ext_fields ha hb hc hn hM hR hX (Engine.reseed_S _ seed)
    ((Engine.reseed_seeded _ seed).trans (e.reseed_seeded seed).symm)

theorem Engine.initialize_withS (e : Engine) (m : Memory) (seed : List Byte) :
    ({ e with S := m } : Engine).initialize seed = { e.initialize seed with S := m } :=
  e.clear.reseed_withS m seed

theorem exec_init_withSeedBuffer {s : State} {m : Memory} {len : SeedLen}
    (hseed : effectiveSeed s.engine.S len = effectiveSeed m len) {t : State}
    (h : exec (.init len) s = .next t) :
    exec (.init len) (s.withSeedBuffer m) = .next (t.withSeedBuffer m) := by
  rw [exec_init] at h
  cases h
  rw [exec_init, hseed, State.withSeedBuffer, State.withEngine_engine, Engine.initialize_withS]
  rfl

theorem exec_reseed_withSeedBuffer {s : State} {m : Memory} {len : SeedLen}
    (hseed : effectiveSeed s.engine.S len = effectiveSeed m len) {t : State}
    (h : exec (.reseed len) s = .next t) :
    exec (.reseed len) (s.withSeedBuffer m) = .next (t.withSeedBuffer m) := by
  cases hs : s.engine.seeded with
  | true =>
    rw [exec_reseed_of_seeded hs] at h
    cases h
    rw [exec_reseed_of_seeded (s := s.withSeedBuffer m) hs, hseed, State.withSeedBuffer,
      State.withEngine_engine, Engine.reseed_withS]
    rfl
  | false =>
    rw [exec_reseed_of_unseeded hs] at h
    cases h
    exact exec_reseed_of_unseeded (s := s.withSeedBuffer m) hs len

/-- Settles O38: the two buffers hold the same effective seed, and `S` is not read for anything else. -/
theorem bytesBeyondLengthAreIgnored : Obligations.BytesBeyondLengthAreIgnored := by
  unfold Obligations.BytesBeyondLengthAreIgnored
  intro s t t' m len i hi hS h h'
  have hseed : effectiveSeed s.engine.S len = effectiveSeed m len := effectiveSeed_congr rfl hS
  have hnext : exec i (s.withSeedBuffer m) = .next (t.withSeedBuffer m) := by
    rcases hi with rfl | rfl
    · exact exec_init_withSeedBuffer hseed h
    · exact exec_reseed_withSeedBuffer hseed h
  exact Host.Outcome.next.inj (h'.symm.trans hnext)

end Sys2Proof.Machine
end

section
/-! SUPPORT. The State Updater: one word step on indices that are plain numbers, as R178 writes it; the word
steps as the sequences of that rule; what UPDATE reads and leaves; and the counter `c`. -/

namespace Sys2Proof.Machine

/-! ## One word step -/

/-- A number below 256 as an index is the index with that number. -/
theorem PoolIndex.eq_ofNat_iff {i : Nat} (hi : i < 256) (j : PoolIndex) :
    j = BitVec.ofNat 8 i ↔ j.toNat = i := by
  rw [← BitVec.toNat_inj, BitVec.toNat_ofNat, Nat.mod_eq_of_lt hi]

theorem PoolIndex.ofNat_toNat (j : PoolIndex) : BitVec.ofNat 8 j.toNat = j :=
  ((PoolIndex.eq_ofNat_iff j.isLt j).2 rfl).symm

theorem lowIndex_eq_ofNat (x : W64) : lowIndex x = BitVec.ofNat 8 ((x >>> 3) &&& 255).toNat :=
  (PoolIndex.ofNat_toNat _).symm.trans (congrArg _ (lowIndex_toNat x))

theorem highIndex_eq_ofNat (y : W64) : highIndex y = BitVec.ofNat 8 ((y >>> 11) &&& 255).toNat :=
  (PoolIndex.ofNat_toNat _).symm.trans (congrArg _ (highIndex_toNat y))

theorem lowIndex_lt (x : W64) : ((x >>> 3) &&& 255).toNat < 256 :=
  lt_of_eq_of_lt (lowIndex_toNat x).symm (lowIndex x).isLt

theorem highIndex_lt (y : W64) : ((y >>> 11) &&& 255).toNat < 256 :=
  lt_of_eq_of_lt (highIndex_toNat y).symm (highIndex y).isLt

/-- The new `a'`: the transform of the sub-step, and the partner word (R172, R173). -/
theorem updateStep_a {i : Nat} (hi : i < 256) (w : UpdateWork) :
    (updateStep i w).a = Spec.newA i w.a
      (Bank.read w.M (BitVec.ofNat 8 (if i < 128 then i + 128 else i - 128))) := by
  rw [← partner_ofNat hi]
  simp only [updateStep, accumulate, Spec.newA]
  have hturn : i % 4 = 0 ∨ i % 4 = 1 ∨ i % 4 = 2 ∨ i % 4 = 3 := by omega
  rcases hturn with h | h | h | h <;> simp [h]

/-- The pool after the step: word `i` is `y`, looked up before the write (R174, R175). -/
theorem updateStep_M {i j : Nat} (hi : i < 256) (hj : j < 256) (w : UpdateWork) :
    Bank.read (updateStep i w).M (BitVec.ofNat 8 j) =
      if j = i then
        Bank.read w.M (BitVec.ofNat 8 ((Bank.read w.M (BitVec.ofNat 8 i) >>> 3) &&& 255).toNat) +
          (updateStep i w).a + w.b
      else Bank.read w.M (BitVec.ofNat 8 j) := by
  have hindex : (BitVec.ofNat 8 j : PoolIndex) = BitVec.ofNat 8 i ↔ j = i := by
    rw [PoolIndex.eq_ofNat_iff hi, BitVec.toNat_ofNat, Nat.mod_eq_of_lt hj]
  simp only [updateStep, Bank.read_write, hindex, lowIndex_eq_ofNat]

/-- The new `b'`: it is looked up after the write of word `i` (R174, R175). -/
theorem updateStep_b (i : Nat) (w : UpdateWork) :
    (updateStep i w).b =
      Bank.read (updateStep i w).M (BitVec.ofNat 8
        ((Bank.read (updateStep i w).M (BitVec.ofNat 8 i) >>> 11) &&& 255).toNat) +
      Bank.read w.M (BitVec.ofNat 8 i) := by
  simp only [updateStep, Bank.read_write_same, highIndex_eq_ofNat]

/-- Result word `i` is the new `b'`, and the others stay (R174). -/
theorem updateStep_R {i : Nat} (hi : i < 256) (w : UpdateWork) (j : PoolIndex) :
    Bank.read (updateStep i w).R j =
      if j.toNat = i then (updateStep i w).b else Bank.read w.R j := by
  simp only [updateStep, Bank.read_write, PoolIndex.eq_ofNat_iff hi]

/-! ## The word steps as the sequences of R178 -/

/-- What UPDATE works on before word step `k`. -/
def Engine.workAt (e : Engine) (k : Nat) : UpdateWork := forUpTo updateStep k (updateStart e)

theorem Engine.workAt_zero (e : Engine) : e.workAt 0 = updateStart e := forUpTo_zero updateStep _

theorem Engine.workAt_succ (e : Engine) (k : Nat) : e.workAt (k + 1) = updateStep k (e.workAt k) :=
  forUpTo_succ updateStep k _

/-- The word steps are one solution of the equations of R178. -/
theorem Engine.workAt_updateRun (e : Engine) :
    Spec.UpdateRun e (fun k => (e.workAt k).a) (fun k => (e.workAt k).b)
      (fun k j => Bank.read (e.workAt k).M (BitVec.ofNat 8 j)) where
  startA := by rw [workAt_zero, updateStart]
  startB := by rw [workAt_zero, updateStart]
  startM j := by rw [workAt_zero, updateStart, PoolIndex.ofNat_toNat]
  stepA i hi := by rw [workAt_succ, updateStep_a hi]
  stepM i hi j hj := by simp only [workAt_succ, updateStep_M hi hj]
  stepB i _ := by rw [workAt_succ, updateStep_b]

/-- The work is where the sequences of R178 say it is before word step `n`; of the result buffer, the words
below `n` are written. -/
structure UpdateWork.AtStep (seqA seqB : Nat → W64) (seqM : Nat → Nat → W64) (n : Nat) (w : UpdateWork) :
    Prop where
  a : w.a = seqA n
  b : w.b = seqB n
  M : ∀ j < 256, Bank.read w.M (BitVec.ofNat 8 j) = seqM n j
  R : ∀ j : PoolIndex, j.toNat < n → Bank.read w.R j = seqB (j.toNat + 1)

section
variable {e : Engine} {a b : Nat → W64} {m : Nat → Nat → W64}

theorem UpdateWork.AtStep.start (h : Spec.UpdateRun e a b m) : (updateStart e).AtStep a b m 0 where
  a := h.startA.symm
  b := h.startB.symm
  M j hj := by
    have hstart := h.startM (BitVec.ofNat 8 j)
    rw [BitVec.toNat_ofNat, Nat.mod_eq_of_lt hj] at hstart
    exact hstart.symm
  R j hj := absurd hj (Nat.not_lt_zero _)

/-- One word step follows the sequences: every word that it reads is one the sequences name. -/
theorem UpdateWork.AtStep.step (h : Spec.UpdateRun e a b m) {i : Nat} (hi : i < 256) {w : UpdateWork}
    (hw : w.AtStep a b m i) : (updateStep i w).AtStep a b m (i + 1) := by
  have hA : (updateStep i w).a = a (i + 1) := by
    rw [updateStep_a hi, h.stepA i hi, hw.a, hw.M _ (by split <;> omega)]
  have hM : ∀ j < 256, Bank.read (updateStep i w).M (BitVec.ofNat 8 j) = m (i + 1) j := fun j hj => by
    rw [updateStep_M hi hj, h.stepM i hi j hj, hw.M i hi, hw.M _ (lowIndex_lt _), hA, hw.b, hw.M j hj]
  have hB : (updateStep i w).b = b (i + 1) := by
    rw [updateStep_b, h.stepB i hi, hM i hi, hM _ (highIndex_lt _), hw.M i hi]
  refine ⟨hA, hB, hM, fun j hj => ?_⟩
  rw [updateStep_R hi]
  split
  · next hji => rw [hB, hji]
  · next hji => exact hw.R j (by omega)

/-- Whatever sequences solve the equations of R178, the word steps end where they do. -/
theorem Engine.atStep_updateSteps (h : Spec.UpdateRun e a b m) : (updateSteps e).AtStep a b m 256 := by
  rw [updateSteps, poolWords]
  exact forUpTo_induct (P := UpdateWork.AtStep a b m) (.start h) fun _ _ hi hw => hw.step h hi

end

/-! ## UPDATE -/

/-- Settles O26: the word steps solve the equations, and every solution ends with what they leave. -/
theorem updateIsTheWordChain : Obligations.UpdateIsTheWordChain := by
  unfold Obligations.UpdateIsTheWordChain
  refine fun s => ⟨⟨_, _, _, s.engine.workAt_updateRun⟩, fun a b m h => ?_⟩
  have hend := Engine.atStep_updateSteps h
  refine ⟨s.engine.update.M, s.engine.update.R, ?_, fun i => ⟨?_, hend.R i i.isLt⟩⟩
  · rw [exec_update, ← hend.a, ← hend.b]
    rfl
  · rw [← hend.M i.toNat i.isLt, PoolIndex.ofNat_toNat, Engine.update_M]

/-- Settles O27: the last word step writes its `b'` to both. -/
theorem updateLeavesLastWordInB : Obligations.UpdateLeavesLastWordInB := by
  unfold Obligations.UpdateLeavesLastWordInB
  refine fun s => ⟨_, exec_update s, ?_, ?_⟩
  · exact s.engine.update_n
  · rw [State.withEngine_engine, Engine.update_b, Engine.update_R]
    exact updateSteps_last s.engine

/-- Settles O28: the word steps are equal from engines that agree on `a`, `b`, `c` and `M`, and UPDATE stores
what they leave. -/
theorem updateIgnoresOldResults : Obligations.UpdateIgnoresOldResults := by
  unfold Obligations.UpdateIgnoresOldResults
  intro s s' t t' ha hb hc hM h h'
  have hsteps : updateSteps s.engine = updateSteps s'.engine := updateSteps_eq ha hb hc hM
  rw [exec_update] at h h'
  cases h
  cases h'
  simp [hsteps, hc]

/-! ## The counter -/

@[simp] theorem Engine.initialize_c (e : Engine) (seed : List Byte) : (e.initialize seed).c = 1 := by
  obtain ⟨hc, _⟩ := e.initialize_rest seed
  exact hc

@[simp] theorem Engine.reseed_c (e : Engine) (seed : List Byte) : (e.reseed seed).c = e.c + 1 := by
  obtain ⟨hc, _⟩ := e.reseed_rest seed
  exact hc

/-- A refill counts when it calls UPDATE (R181, R190). -/
theorem Engine.refill_c (e : Engine) : e.refill.c = if e.n = 0 then e.c + 1 else e.c := by
  split
  · next h0 => rw [Engine.refill_exhausted h0, Engine.update_c]
  · next h0 => rw [Engine.refill_words_left h0]

/-- Settles O45: INIT, an accepted RESEED and an accepted draw are the steps that reach UPDATE, and each other
case keeps the engine or writes `S` only. -/
theorem counterCountsUpdates : Obligations.CounterCountsUpdates := by
  unfold Obligations.CounterCountsUpdates
  intro s t w rest hi h
  rcases command_cases hi h with ⟨_, hd, rfl⟩ | ⟨hd, hs, rfl⟩ | ⟨hd, hs, rfl⟩ | ⟨_, hd, rfl⟩ |
    ⟨_, hd, hs, rfl⟩ | ⟨_, hd, hs, rfl⟩ | ⟨_, _, hd, rfl⟩
  · simp [hd]
  · simp [hd, hs]
  · simp [hd, hs, Engine.refill_c]
  · simp [hd]
  · simp [hd, hs]
  · simp [hd, hs]
  · simp [hd]

end Sys2Proof.Machine
end

section
/-! SUPPORT. The draw: what NEXT leaves in the engine and answers, a run of draws as iterated draws, and the
engine after any number of draws from a whole batch, from which the order within a batch and the closed form
of the stream are read off. -/

namespace Sys2Proof.Machine

/-! ## One draw -/

/-- The engine that an accepted NEXT leaves (R190). -/
def Engine.draw (e : Engine) : Engine := e.refill.consume

theorem exec_next_of_unseeded {s : State} (hs : s.engine.seeded = false) :
    exec .next s = .next (s.refuse .errNotSeeded) := by
  rw [exec, execNext, State.ifSeeded_unseeded _ hs]

theorem exec_next_of_seeded {s : State} (hs : s.engine.seeded = true) :
    exec .next s = .next ((s.withEngine s.engine.draw).respond .ok s.engine.draw.drawn) := by
  rw [exec, execNext, State.ifSeeded_seeded _ hs]
  rfl

@[simp] theorem Engine.draw_seeded (e : Engine) : e.draw.seeded = e.seeded := by
  rw [Engine.draw, Engine.consume_seeded, Engine.refill_seeded]

/-- With words left, a draw counts `n` down, and that is all. -/
theorem Engine.draw_of_words_left {e : Engine} (h : e.n ≠ 0) :
    e.draw = { e with n := BitVec.ofNat 9 (e.n.toNat - 1) } := by
  have hn : e.n - 1 = BitVec.ofNat 9 (e.n.toNat - 1) := by bv_omega
  rw [Engine.draw, Engine.refill_words_left h, Engine.consume, hn]

/-- On an exhausted batch, a draw takes the first word of the batch that UPDATE leaves. -/
theorem Engine.draw_of_exhausted {e : Engine} (h : e.n = 0) :
    e.draw = { e.update with n := BitVec.ofNat 9 255 } := by
  have hn : 256#9 - 1 = BitVec.ofNat 9 255 := by decide
  rw [Engine.draw, Engine.refill_exhausted h, Engine.consume, Engine.update_n, hn]

/-- The word answered is the one at the new `n`. -/
theorem Engine.drawn_withCount (e : Engine) (m : Nat) :
    ({ e with n := BitVec.ofNat 9 m } : Engine).drawn = Bank.read e.R (BitVec.ofNat 8 m) := by
  rw [Engine.drawn, BitVec.setWidth_ofNat_of_le (by decide)]

/-- Settles O39: a refusal, a draw with words left and a draw from an exhausted batch, clause by clause. -/
theorem nextDrawsOneWord : Obligations.NextDrawsOneWord := by
  unfold Obligations.NextDrawsOneWord
  refine ⟨by decide, fun s => ⟨exec_next_of_unseeded, fun hs h1 _ => ?_, fun hs h0 =>
    ⟨_, exec_update s, ?_⟩⟩⟩
  · have hne : s.engine.n ≠ 0 := by bv_omega
    rw [exec_next_of_seeded hs, Engine.draw_of_words_left hne, Engine.drawn_withCount]
    rfl
  · rw [exec_next_of_seeded hs, Engine.draw_of_exhausted h0, Engine.drawn_withCount]
    rfl

/-! ## A run of draws -/

/-- The state that a run of `k` draws leaves: the engine drawn from `k` times, and the word of each draw
answered in turn. -/
def State.afterDraws (s : State) (k : Nat) (rest : List Input) : State :=
  { s with
    engine := Engine.draw^[k] s.engine
    inputs := rest
    responses := s.responses ++ (List.range k).map fun d => ⟨.ok, (Engine.draw^[d + 1] s.engine).drawn⟩ }

/-- The first of `k + 1` draws leaves a state that `k` draws take to the end. -/
theorem State.afterDraws_succ (s : State) (k : Nat) (inputs rest : List Input) :
    (((s.withInputs inputs).withEngine s.engine.draw).respond .ok s.engine.draw.drawn).afterDraws k rest =
      s.afterDraws (k + 1) rest := by
  simp [State.afterDraws, List.range_succ_eq_map, Function.comp_def]

/-- A run over issued draws, from a seeded engine, performs all of them. -/
theorem run_draws {s : State} {k : Nat} {rest : List Input} (hs : s.engine.seeded = true)
    (hi : s.inputs = List.replicate k (.command 0x00000001) ++ rest) :
    run k s = .next (s.afterDraws k rest) := by
  induction k generalizing s with
  | zero =>
    have hrest : s.inputs = rest := hi
    subst hrest
    simp [run_zero, State.afterDraws]
  | succ k ih =>
    rw [List.replicate_succ, List.cons_append] at hi
    have hstep := (step_of_legal hi (by decide)).trans (exec_next_of_seeded hs)
    rw [run_succ k hstep, ih ((Engine.draw_seeded _).trans hs) rfl]
    exact congrArg _ (State.afterDraws_succ s k _ rest)

/-! ## Any number of draws from a whole batch -/

/-- The count of words left after the `(d + 1)`-th draw fits the 9 bits of `n` (R24). -/
theorem wordsLeft_toNat (d : Nat) : (BitVec.ofNat 9 (255 - d % 256)).toNat = 255 - d % 256 := by
  rw [BitVec.toNat_ofNat]
  omega

/-- UPDATE does not read `n`. -/
theorem Engine.update_withCount (e : Engine) (m : Count) :
    ({ e with n := m } : Engine).update = e.update := by
  have hw : updateSteps { e with n := m } = updateSteps e := updateSteps_eq rfl rfl rfl rfl
  rw [Engine.update, Engine.update, hw]

/-- From a whole batch, the `(d + 1)`-th draw leaves the engine of `d / 256` UPDATEs with
`255 - d mod 256` words to go (R191, R193). -/
theorem Engine.draw_iterate {e : Engine} (hn : e.n = 256) (d : Nat) :
    Engine.draw^[d + 1] e =
      { Engine.update^[d / 256] e with n := BitVec.ofNat 9 (255 - d % 256) } := by
  induction d with
  | zero =>
    have hne : e.n ≠ 0 := by rw [hn]; decide
    rw [Function.iterate_one, Engine.draw_of_words_left hne, hn]
    rfl
  | succ d ih =>
    rw [Function.iterate_succ_apply', ih]
    by_cases hlast : d % 256 = 255
    · have hdiv : (d + 1) / 256 = d / 256 + 1 := by omega
      have hmod : (d + 1) % 256 = 0 := by omega
      rw [Engine.draw_of_exhausted (by rw [hlast]; rfl), Engine.update_withCount, hdiv, hmod,
        Function.iterate_succ_apply']
    · have hdiv : (d + 1) / 256 = d / 256 := by omega
      have hcount : 255 - d % 256 - 1 = 255 - (d + 1) % 256 := by omega
      have hne : BitVec.ofNat 9 (255 - d % 256) ≠ 0 := by bv_omega
      rw [Engine.draw_of_words_left hne, wordsLeft_toNat, hcount, hdiv]

/-- The word that the `(d + 1)`-th draw answers. -/
theorem Engine.drawn_iterate {e : Engine} (hn : e.n = 256) (d : Nat) :
    (Engine.draw^[d + 1] e).drawn =
      Bank.read (Engine.update^[d / 256] e).R (BitVec.ofNat 8 (255 - d % 256)) := by
  rw [Engine.draw_iterate hn, Engine.drawn_withCount]

/-- Within the batch, no UPDATE runs and only `n` moves (R192). -/
theorem Engine.draw_iterate_of_le {e : Engine} (hn : e.n = 256) {k : Nat} (hk : k ≤ 256) :
    Engine.draw^[k] e = { e with n := BitVec.ofNat 9 (256 - k) } := by
  cases k with
  | zero => exact Engine.ext_fields rfl rfl rfl hn rfl rfl rfl rfl rfl
  | succ d =>
    have hcount : 256 - (d + 1) = 255 - d := by omega
    rw [Engine.draw_iterate hn, Nat.div_eq_of_lt hk, Nat.mod_eq_of_lt hk, hcount]
    rfl

/-- Settles O40: a draw within the batch leaves the batch as it is. -/
theorem batchIsDrawnDownward : Obligations.BatchIsDrawnDownward := by
  unfold Obligations.BatchIsDrawnDownward
  intro s k rest hk hs hn hi
  have hwords : ∀ d ∈ List.range k, (⟨.ok, (Engine.draw^[d + 1] s.engine).drawn⟩ : Response) =
      ⟨.ok, Bank.read s.engine.R (BitVec.ofNat 8 (255 - d))⟩ := by
    intro d hd
    have hd : d < 256 := (List.mem_range.1 hd).trans_le hk
    rw [Engine.drawn_iterate hn, Nat.div_eq_of_lt hd, Nat.mod_eq_of_lt hd]
    rfl
  rw [run_draws hs hi, State.afterDraws, Engine.draw_iterate_of_le hn hk, List.map_congr_left hwords]

/-! ## The stream after an INIT -/

/-- What a number of UPDATEs leaves of the rest: `c` counts them, `S` and `seeded` stay. -/
theorem Engine.update_iterate_rest (e : Engine) (q : Nat) :
    (Engine.update^[q] e).c = e.c + BitVec.ofNat 64 q ∧ (Engine.update^[q] e).S = e.S ∧
      (Engine.update^[q] e).seeded = e.seeded := by
  induction q with
  | zero => simp
  | succ q ih =>
    obtain ⟨hc, hS, hs⟩ := ih
    rw [Function.iterate_succ_apply']
    refine ⟨?_, hS, hs⟩
    rw [Engine.update_c, hc, BitVec.ofNat_add, BitVec.add_assoc]
    rfl

/-- Settles O41: INIT leaves a whole batch with `c` 1, and the draws go on from there. -/
theorem streamAfterInitHasClosedForm : Obligations.StreamAfterInitHasClosedForm := by
  unfold Obligations.StreamAfterInitHasClosedForm
  intro s0 s len k rest hi h
  have he := engine_of_exec_init h
  obtain ⟨hc, hn, hS, _, _⟩ := s0.engine.initialize_rest (effectiveSeed s0.engine.S len)
  rw [← Engine.setSeeded_c, ← he] at hc
  rw [← Engine.setSeeded_n, ← he] at hn
  rw [← Engine.setSeeded_S, ← he] at hS
  have hseeded : s.engine.seeded = true := by rw [he, Engine.setSeeded_seeded]
  have hinputs : s.inputs = s0.inputs := by
    rw [exec_init] at h
    cases h
    rfl
  obtain ⟨hck, hSk, hsk⟩ := s.engine.update_iterate_rest (k / 256)
  refine ⟨_, run_draws hseeded (hinputs.trans hi), rfl, ?_, ?_⟩
  · simp only [State.afterDraws, Engine.drawn_iterate hn]
  · rw [State.afterDraws, Engine.draw_iterate hn]
    exact ⟨wordsLeft_toNat k, hck.trans (by rw [hc]), hSk.trans hS,
      hsk.trans hseeded⟩

end Sys2Proof.Machine
end

section
/-! SUPPORT. Refusals (60_exceptions): a command completes with OK, writing the engine only, or is refused
and leaves the engine as it was. -/

namespace Sys2Proof.Machine

/-- The two ends of a command: OK, with whatever engine and data it leaves, or a refusal (R201, R206). -/
theorem command_ok_or_refused {s t : State} {w : CmdWord} {rest : List Input}
    (hi : s.inputs = .command w :: rest) (h : step s = .next t) :
    (∃ e data, t = ((s.withInputs rest).withEngine e).respond .ok data) ∨
    ∃ status, t = (s.withInputs rest).refuse status := by
  rcases command_cases hi h with ⟨_, _, ht⟩ | ⟨_, _, ht⟩ | ⟨_, _, ht⟩ | ⟨_, _, ht⟩ |
    ⟨_, _, _, ht⟩ | ⟨_, _, _, ht⟩ | ⟨_, _, _, ht⟩
  · exact .inr ⟨_, ht⟩
  · exact .inr ⟨_, ht⟩
  · exact .inl ⟨_, _, ht⟩
  · exact .inl ⟨_, _, ht⟩
  · exact .inr ⟨_, ht⟩
  · exact .inl ⟨_, _, ht⟩
  · exact .inl ⟨_, _, ht⟩

/-- Settles O13: the appended response tells the two ends of a command apart, and a refusal is the whole
next state. -/
theorem refusedCommandsChangeNothing : Obligations.RefusedCommandsChangeNothing := by
  unfold Obligations.RefusedCommandsChangeNothing
  intro s t w rest r hi h happ hne
  rcases command_ok_or_refused hi h with ⟨e, data, rfl⟩ | ⟨status, rfl⟩
  · have hr : ⟨.ok, data⟩ = r := List.singleton_inj.1 (List.append_cancel_left happ)
    exact absurd (congrArg Response.status hr).symm hne
  · have hr : ⟨status, 0⟩ = r := List.singleton_inj.1 (List.append_cancel_left happ)
    rw [← hr]
    rfl

/-- Settles O32: the guard of NEXT and RESEED reads `seeded` and refuses; INIT and SEEDW have no guard. -/
theorem drawAndReseedNeedSeeding : Obligations.DrawAndReseedNeedSeeding := by
  unfold Obligations.DrawAndReseedNeedSeeding
  intro s len addr byte hs
  exact ⟨exec_next_of_unseeded hs, exec_reseed_of_unseeded hs len,
    ⟨_, exec_init len s⟩, ⟨_, exec_seedw addr byte s⟩⟩

end Sys2Proof.Machine
end

section
/-! SUPPORT. Reset and liveness (70_reset_and_hazards): what an asserted reset leaves, and that every
instruction, every step and every run answers a next state. -/

namespace Sys2Proof.Machine

/-- Settles O15: the step is the reset branch, whatever command was in progress, and the unspecified part
is what the model's free value names. -/
theorem assertedResetLeavesResetState : Obligations.AssertedResetLeavesResetState := by
  unfold Obligations.AssertedResetLeavesResetState
  intro s p rest hi
  exact ⟨_, Config.resetContents s.resets, step_of_reset hi, by simp⟩

/-- No instruction faults or is refused by the model, the internal operations included. A NEXT or RESEED
on an engine that is not seeded is answered, and that answer is a next state (R203). -/
theorem exec_answers_next (i : Instr) (s : State) : ∃ t, exec i s = .next t := by
  cases i with
  | next => exact ⟨_, rfl⟩
  | init len => exact ⟨_, exec_init len s⟩
  | reseed len => exact ⟨_, rfl⟩
  | seedw addr byte => exact ⟨_, exec_seedw addr byte s⟩
  | mix => exact ⟨_, rfl⟩
  | fold len => exact ⟨_, exec_fold len s⟩
  | premix => exact ⟨_, exec_premix s⟩
  | derive1 => exact ⟨_, exec_derive1 s⟩
  | derive2 => exact ⟨_, exec_derive2 s⟩
  | update => exact ⟨_, exec_update s⟩

/-- The engine has no trap: idle, reset, illegal word or command, a step answers a next state (R200, R243). -/
theorem step_answers_next (s : State) : ∃ t, step s = .next t := by
  match hi : s.inputs with
  | [] => exact ⟨_, step_of_idle hi⟩
  | .reset p :: rest => exact ⟨_, step_of_reset hi⟩
  | .command w :: rest =>
    match hd : decode w with
    | .error r => exact ⟨_, step_of_illegal hi hd⟩
    | .ok i =>
      rw [step_of_legal hi hd]
      exact exec_answers_next i _

/-- Settles O12, by induction on the number of steps: the first step answers a next state, and the run
goes on from there. -/
theorem engineNeverHalts : Obligations.EngineNeverHalts := by
  unfold Obligations.EngineNeverHalts
  intro k
  induction k with
  | zero => exact fun s => ⟨s, run_zero s⟩
  | succ k ih =>
    intro s
    obtain ⟨t, hstep⟩ := step_answers_next s
    rw [run_succ k hstep]
    exact ih t

end Sys2Proof.Machine
end

section
/-! SUPPORT. The round trip of the encoding, the one response that each command word gets and the data it
carries, the idle step, and the invariant at reset. -/

namespace Sys2Proof.Machine

/-! ## The round trip -/

/-- One lemma per row of the opcode table gives the round trip for every instruction. -/
theorem encode_roundTrip (i : Instr) : Laws.RoundTrip.Statement i := by
  cases i with
  | next => exact Laws.RoundTrip.next
  | init len => exact Laws.RoundTrip.init len
  | reseed len => exact Laws.RoundTrip.reseed len
  | seedw addr byte => exact Laws.RoundTrip.seedw addr byte
  | mix => exact Laws.RoundTrip.mix
  | fold len => exact Laws.RoundTrip.fold len
  | premix => exact Laws.RoundTrip.premix
  | derive1 => exact Laws.RoundTrip.derive1
  | derive2 => exact Laws.RoundTrip.derive2
  | update => exact Laws.RoundTrip.update

/-- Settles O2: a well-formed instruction has a word, and every word the encoder gives decodes back. -/
theorem encodedCommandsDecodeBack : Obligations.EncodedCommandsDecodeBack := by
  unfold Obligations.EncodedCommandsDecodeBack
  intro i hwf
  obtain ⟨hback, hword⟩ := encode_roundTrip i
  obtain ⟨w, he⟩ := Option.isSome_iff_exists.1 (hword.trans hwf)
  exact ⟨w, he, hback w he⟩

/-- Each answer of the decoder with the fixed fields of the words that have it (R86). -/
theorem decode_ok_fields {w : CmdWord} {i : Instr} (h : decode w = .ok i) :
    (i = .next ∧ opField w = 1#4 ∧ lenField w = 0#28) ∨
    (i = .init (lenField w) ∧ opField w = 2#4) ∨
    (i = .reseed (lenField w) ∧ opField w = 3#4) ∨
    (i = .seedw (addrField w) (byteField w) ∧ opField w = 4#4 ∧
      zeroHiField w = 0#8 ∧ zeroLoField w = 0#2) := by
  unfold decode at h
  split at h
  · next hop =>
    split at h
    · next hzero => cases h; exact .inl ⟨rfl, hop, hzero⟩
    · cases h
  split at h
  · next hop => cases h; exact .inr (.inl ⟨rfl, hop⟩)
  split at h
  · next hop => cases h; exact .inr (.inr (.inl ⟨rfl, hop⟩))
  split at h
  · next hop =>
    split at h
    · next hzero => cases h; exact .inr (.inr (.inr ⟨rfl, hop, hzero⟩))
    · cases h
  · cases h

/-- The format L word of a word's own length field and opcode is the word (R81). -/
theorem lenWord_lenField (w : CmdWord) {op : CmdWord} (h : (opField w).toNat = op.toNat) :
    (lenField w).setWidth 32 <<< 4 ||| op = w := by
  rw [opField_toNat] at h
  apply BitVec.eq_of_toNat_eq
  rw [lenWord_toNat _ _ (by omega), lenField_toNat]
  omega

/-- The format W word of a word's own address and byte is the word, when its opcode is 4 and its reserved
fields are clear (R81). -/
theorem seedwWord_fields {w : CmdWord} (hop : opField w = 4#4) (hhi : zeroHiField w = 0#8)
    (hlo : zeroLoField w = 0#2) :
    (byteField w).setWidth 32 <<< 16 ||| (addrField w).setWidth 32 <<< 4 ||| 4#32 = w := by
  have hop' : w.toNat % 16 = 4 := by rw [← opField_toNat, hop]; rfl
  have hhi' : w.toNat / 16777216 = 0 := by rw [← zeroHiField_toNat, hhi]; rfl
  have hlo' : w.toNat / 16384 % 4 = 0 := by rw [← zeroLoField_toNat, hlo]; rfl
  apply BitVec.eq_of_toNat_eq
  rw [seedwWord_toNat, byteField_toNat, addrField_toNat]
  omega

/-- Settles O3: an answer of the decoder fixes every field of the word, by its operands and by the branch
it comes from, and the encoder puts the same fields together. -/
theorem decodedWordsEncodeBack : Obligations.DecodedWordsEncodeBack := by
  unfold Obligations.DecodedWordsEncodeBack
  intro w i hd
  rcases decode_ok_fields hd with ⟨rfl, hop, hzero⟩ | ⟨rfl, hop⟩ | ⟨rfl, hop⟩ | ⟨rfl, hop, hhi, hlo⟩
  · have hw : (0#28).setWidth 32 <<< 4 ||| 1#32 = w := hzero ▸ lenWord_lenField w (by rw [hop]; rfl)
    exact congrArg some hw
  · exact congrArg some (lenWord_lenField w (by rw [hop]; rfl))
  · exact congrArg some (lenWord_lenField w (by rw [hop]; rfl))
  · exact congrArg some (seedwWord_fields hop hhi hlo)

/-! ## The step and its responses -/

/-- Settles O9: a command word is answered a next state, and both ends of a command, OK and refusal, take
the word and append one response. -/
theorem everyCommandGetsOneResponse : Obligations.EveryCommandGetsOneResponse := by
  unfold Obligations.EveryCommandGetsOneResponse
  intro s w rest hi
  obtain ⟨t, h⟩ := step_answers_next s
  rcases command_ok_or_refused hi h with ⟨e, data, rfl⟩ | ⟨status, rfl⟩
  · exact ⟨_, _, h, rfl, rfl⟩
  · exact ⟨_, _, h, rfl, rfl⟩

theorem Response.word_status (r : Response) : r.word.extractLsb' 64 4 = r.status.code :=
  BitVec.extractLsb'_append_eq_left

theorem Response.word_data (r : Response) : r.word.extractLsb' 0 64 = r.data :=
  BitVec.extractLsb'_append_eq_right

/-- Settles O10: of what a step on a command word can do, only the NEXT that runs answers other data
than 0, and that is the word drawn from the engine it leaves. -/
theorem onlyDrawsCarryData : Obligations.OnlyDrawsCarryData := by
  unfold Obligations.OnlyDrawsCarryData
  refine ⟨fun r => ⟨r.word_status, r.word_data⟩, fun s t w rest hi h => ?_⟩
  rcases command_cases hi h with ⟨_, hd, rfl⟩ | ⟨hd, _, rfl⟩ | ⟨hd, _, rfl⟩ |
    ⟨_, hd, rfl⟩ | ⟨_, hd, _, rfl⟩ | ⟨_, hd, _, rfl⟩ | ⟨_, _, hd, rfl⟩
  · exact ⟨_, rfl, by simp, fun _ => rfl⟩
  · exact ⟨_, rfl, by simp, fun _ => rfl⟩
  · exact ⟨_, rfl, fun _ => rfl, fun hno => (hno ⟨rfl, hd⟩).elim⟩
  · exact ⟨_, rfl, by simp [hd], fun _ => rfl⟩
  · exact ⟨_, rfl, by simp, fun _ => rfl⟩
  · exact ⟨_, rfl, by simp [hd], fun _ => rfl⟩
  · exact ⟨_, rfl, by simp [hd], fun _ => rfl⟩

/-- Settles O8: it is the branch of `step` with nothing issued. -/
theorem idleEngineHoldsItsState : Obligations.IdleEngineHoldsItsState := by
  unfold Obligations.IdleEngineHoldsItsState
  exact fun _ => step_of_idle

/-! ## The invariant at reset -/

/-- A reset engine meets its part of the invariant, and no response has been given yet. -/
theorem State.resetWith_inv (u : ResetContents) : (State.resetWith u).Inv := by
  obtain ⟨hS, hn, hb⟩ := Engine.reset_inv u
  exact ⟨hS, hn, hb, by simp⟩

/-- Settles O46: `State.reset` is the reset state with the named contents. -/
theorem resetMeetsInvariant : Obligations.ResetMeetsInvariant := by
  unfold Obligations.ResetMeetsInvariant
  exact ⟨State.resetWith_inv namedResetContents, State.resetWith_inv⟩

end Sys2Proof.Machine
end
